-- ==== Sys2Proof/Word.lean ====
section
/-! DEFINITION. The word types of the model. Nothing here is signed and nothing wraps (spec 00_scope.md section 6). -/

namespace Sys2Proof

/-- One byte of an operation's encoding (30_encoding.md R60, R61). -/
abbrev Byte := BitVec 8

/-- The width of an MBA delay value (10_state.md R23). -/
abbrev W16 := BitVec 16

/-- The width of EAX, EBX, ECX, EDX and of an MSR address (10_state.md R10, 20_memory.md R41). -/
abbrev W32 := BitVec 32

/-- The width of a model-specific register (10_state.md R14). -/
abbrev W64 := BitVec 64

end Sys2Proof
end

