-- ==== Sys2Proof/Config.lean ====
section
/-! DEFINITION. The configuration record `Cfg` of 00_scope.md R5 as plain data, and the free values: opaque constants that
nothing can evaluate, for what the spec leaves open. -/

namespace Sys2Proof

/-- The two caches that CAT and CDP control (00_scope.md R1). -/
inductive Level where
  | l3
  | l2
deriving DecidableEq, Repr

/-- The kind of a cache request, an input attached to it (20_memory.md R55). -/
inductive RequestKind where
  | code
  | data
deriving DecidableEq, Repr

/-- The fields of `Cfg` that describe one cache (00_scope.md R5). -/
structure CacheCfg where
  /-- `RES_L3` / `RES_L2`: the resource is supported. -/
  res : Bool
  /-- The mask length in the minus-one notation of CPUID (30_encoding.md R64); see `CacheCfg.cbmLen`. -/
  cbmLenM1 : Fin 32
  /-- `L3_SHARE` / `L2_SHARE`: the units other platform entities may use (40_cpuid_enumeration.md R85). -/
  share : W32
  /-- `L3_CDP` / `L2_CDP`: code and data prioritization is supported. -/
  cdp : Bool
  /-- `L3_COS_MAX` / `L2_COS_MAX`: the highest class number of the resource. -/
  cosMax : Nat
deriving DecidableEq, Repr

/-- `L3_CBM_LEN` / `L2_CBM_LEN`, 1 to 32 (00_scope.md R5). -/
def CacheCfg.cbmLen (c : CacheCfg) : Nat := c.cbmLenM1.val + 1

/-- Where a logical processor sits: `core`, `l3dom`, `l2dom`, `mbadom` (00_scope.md R5, 60_exceptions.md R206). -/
structure Place where
  core : Nat
  l3dom : Nat
  l2dom : Nat
  mbadom : Nat
deriving DecidableEq, Repr, Inhabited

/-- `PQR_LOW_VALID` as plain data (00_scope.md R5, 10_state.md R17). PRESUMED default: `below 1024`. See log 3. -/
inductive PqrLowRule where
  /-- Values below a bound are legal. -/
  | below (bound : Nat)
  /-- The predicate is not known: `Config.pqrLowValid` decides. -/
  | unknown
deriving DecidableEq, Repr

/-- `MBA_READBACK` (44_mba.md R178). -/
inductive Readback where
  | written
  | rounded
deriving DecidableEq, Repr

/-- The configuration record (00_scope.md R5). Its constraints are checked in WellFormed.lean. -/
structure Cfg where
  /-- `PQE`: CPUID.(EAX=07H,ECX=0):EBX[15]. -/
  pqe : Bool
  /-- The L3 cache fields. -/
  l3 : CacheCfg
  /-- The L2 cache fields. -/
  l2 : CacheCfg
  /-- `RES_MBA`. -/
  resMba : Bool
  /-- `MBA_MAX`, at least 1. -/
  mbaMax : Nat
  /-- `MBA_LINEAR`. -/
  mbaLinear : Bool
  /-- `MBA_COS_MAX`. -/
  mbaCosMax : Nat
  /-- `LP` with its topology: logical processor p is the p-th entry. -/
  lps : List Place
  /-- `PQR_LOW_VALID`. -/
  pqrLow : PqrLowRule
  /-- `MBA_READBACK`. -/
  readback : Readback
deriving DecidableEq, Repr

/-- The cache record of a level. -/
def Cfg.cache (c : Cfg) : Level → CacheCfg
  | .l3 => c.l3
  | .l2 => c.l2

/-- The place of logical processor `p`; a number that names none reads as the default place. -/
def Cfg.place (c : Cfg) (p : Nat) : Place := c.lps.getD p default

/-- The cache domain of level `X` that logical processor `p` belongs to: `l3dom`, `l2dom` (20_memory.md R42). -/
def Cfg.dom (c : Cfg) (X : Level) (p : Nat) : Nat :=
  match X with
  | .l3 => (c.place p).l3dom
  | .l2 => (c.place p).l2dom

/-- Cfg A of 95_test_vectors.md section 0: two threads on one core, L3 CAT with CDP, linear MBA. The L2 fields it does not
give (the resource is absent) are 0. DESIGN CHOICE, unsafe for claims about `State.reset`: see log 2. -/
def Cfg.vectorsA : Cfg where
  pqe := true
  l3 := { res := true, cbmLenM1 := 15, share := 0xC000, cdp := true, cosMax := 15 }
  l2 := { res := false, cbmLenM1 := 0, share := 0, cdp := false, cosMax := 0 }
  resMba := true
  mbaMax := 90
  mbaLinear := true
  mbaCosMax := 7
  lps := [⟨0, 0, 0, 0⟩, ⟨0, 0, 0, 0⟩]
  pqrLow := .below 1024
  readback := .written

/-- FREE VALUE. The k-th unconstrained 32-bit word that CPUID draws for reserved or undescribed output bits
(00_scope.md R8, 40_cpuid_enumeration.md R80; 93_implementation_defined.md U9). See log 9. -/
opaque Config.cpuidFree : Nat → W32

/-- FREE VALUE. The k-th choice of which logical processor moves next (20_memory.md R53). See log 8. -/
opaque Config.nextMover : Nat → Nat

/-- FREE VALUE. `PQR_LOW_VALID` where nothing is known of it (92_eei_decisions.md D24). See log 3. -/
opaque Config.pqrLowValid : W32 → Bool

/-- FREE VALUE. `COS_MAX_ALL` where no resource is supported: the spec leaves it undefined (00_scope.md R6). See log 12. -/
opaque Config.cosMaxNoResource : Nat

end Sys2Proof
end

