-- ==== Sys2Proof/Machine/Bits.lean ====
section
/-! DEFINITION. The bit primitives of 00_scope.md section 6, on naturals where the spec computes on naturals. -/

namespace Sys2Proof.Machine

/-- The full capacity mask `2^len - 1`: "all 1s" (70_reset_and_hazards.md R222, 43_cdp.md R159). -/
def fullMask (len : Nat) : W32 := BitVec.ofNat 32 (2 ^ len - 1)

/-- `contig(v)`: `v != 0` and the 1 bits of `v` form one unbroken run, by the test of 00_scope.md section 6. -/
def contig (v : Nat) : Bool := v != 0 && (((v ||| (v - 1)) + 1) &&& v) == 0

/-- `popcnt(v)`: the number of 1 bits of `v` (00_scope.md section 6). -/
def popcnt (v : W32) : Nat := (List.range 32).countP fun i => v.getLsbD i

/-- `floor_pow2(v)`: the largest power of two not above `v`, and 0 for 0 (00_scope.md section 6). -/
def floorPow2 (v : Nat) : Nat := if v = 0 then 0 else 2 ^ Nat.log2 v

/-- `v[len-1:0]` as a 32-bit word, for `len` up to 32. -/
def lowBits (len : Nat) (v : W64) : W32 := BitVec.ofNat 32 (v.toNat % 2 ^ len)

/-- The word that has `known`'s bits where `det` is 1 and `free`'s bits elsewhere: an output word of which only some bits are
determined (00_scope.md R8). -/
def mixBits (det known free : W32) : W32 := (known &&& det) ||| (free &&& ~~~det)

/-- Bit `b` at position `i` of a 32-bit word, all other bits 0. -/
def bitAt (i : Nat) (b : Bool) : W32 := if b then BitVec.twoPow 32 i else 0

end Sys2Proof.Machine
end

