-- ==== Sys2Proof/Machine/State.lean ====
section
/-! DEFINITION. The state of the machine as plain data (10_state.md R29 with the hidden state of R25 to R28), the reasons a
step can stop, and the state after reset (70_reset_and_hazards.md R220 to R229). -/

namespace Sys2Proof.Machine

/-- What is recorded when `#GP(0)` is taken: the index of the faulting operation, the content of ECX, and the 64-bit value of
a `WRMSR`, absent for a `RDMSR` (60_exceptions.md R195). -/
structure GPRecord where
  pc : Nat
  address : W32
  value : Option W64
deriving DecidableEq, Repr

/-- The state of one logical processor (10_state.md R29). -/
structure LpState where
  /-- EAX (10_state.md R10). -/
  eax : W32
  /-- EBX. -/
  ebx : W32
  /-- ECX. -/
  ecx : W32
  /-- EDX. -/
  edx : W32
  /-- The index of the next operation (10_state.md R12). -/
  pc : Nat
  /-- The privilege level, an input that no rule changes (41_msr_access.md R103). -/
  cpl : Fin 4
  /-- IA32_PQR_ASSOC[63:32], the class of service (10_state.md R16). -/
  pqrCos : W32
  /-- IA32_PQR_ASSOC[31:0], the RMID and reserved bits (10_state.md R17). -/
  pqrLow : W32
  /-- The recorded `#GP(0)`, never cleared (60_exceptions.md R195). -/
  fault : Option GPRecord
  /-- The program: the bytes of each operation (10_state.md R12). -/
  prog : List (List Byte)
deriving DecidableEq, Repr

/-- A line held by a cache and the allocation unit it sits in (10_state.md R26). Hidden. -/
structure Line where
  addr : Nat
  unit : Nat
deriving DecidableEq, Repr

/-- What software cannot read of a cache (10_state.md R26, R27; 92_eei_decisions.md D31). -/
structure CacheHidden where
  /-- The mask indices not rewritten since a CDP toggle made while some mask was not all 1s (log 14). -/
  unsettled : List Nat
  /-- A power-saving feature is overriding the masks (60_exceptions.md R207), an input (log 15). -/
  override : Bool
  /-- The lines held and their units (log 16). -/
  lines : List Line
deriving DecidableEq, Repr

/-- The state of one L3 or L2 cache: one copy per cache domain (10_state.md R18 to R21). -/
structure CacheState where
  /-- Bit 0 of IA32_L3_QOS_CFG or IA32_L2_QOS_CFG (10_state.md R18, R19). -/
  cdp : Bool
  /-- IA32_L3_MASK_n or IA32_L2_MASK_n at index n (10_state.md R20, R21). -/
  masks : List W32
  /-- What no instruction reads. -/
  hidden : CacheHidden
deriving DecidableEq, Repr

/-- A request on its way to the caches. It carries the class its logical processor had when it was issued (10_state.md R25,
42_cat.md R130) and the masks then in force, so that a later write leaves it "under the old value" (20_memory.md R58; log 27). -/
structure Request where
  lp : Nat
  kind : RequestKind
  /-- The line asked for. -/
  line : Nat
  /-- The class tag. -/
  cos : W32
  /-- The mask that confines it in its L3 cache, none where none was in force. -/
  l3 : Option W32
  /-- The mask that confines it in its L2 cache. -/
  l2 : Option W32
deriving DecidableEq, Repr

/-- The state of the machine. `cfg` to `mba` are the spec's (10_state.md R29; `cfg` is constant, R24). `requests` and `inSmm` are
hidden: no instruction reads them (10_state.md R25, 60_exceptions.md R204). `active`, `tick`, `schedule` and `fresh` are the MODEL's
own fields (log 8, log 9). -/
structure State where
  /-- The configuration, changed by no step (log 2). -/
  cfg : Cfg
  /-- The logical processors, by number. -/
  lps : List LpState
  /-- The L3 caches, by domain number. -/
  l3 : List CacheState
  /-- The L2 caches, by domain number. -/
  l2 : List CacheState
  /-- IA32_L2_QoS_Ext_BW_Thrtl_n at index n, by MBA domain number (10_state.md R23). -/
  mba : List (List W16)
  /-- The requests issued and not yet retired, with their class tags (10_state.md R25; log 27). -/
  requests : List Request
  /-- The logical processors in system management mode (60_exceptions.md R202 to R204; log 35). -/
  inSmm : List Nat
  /-- The logical processor whose operation `exec` runs. -/
  active : Nat
  /-- The counter the free interleaving is drawn from. -/
  tick : Nat
  /-- The movers an environment asks for, read before the free interleaving. -/
  schedule : List Nat
  /-- The counter the unconstrained CPUID words are drawn from. -/
  fresh : Nat
deriving DecidableEq, Repr

/-- Why the machine stops. Raised by `step` alone, when no logical processor can take a step. -/
inductive Fault where
  /-- Every program has run to its end and no `#GP(0)` is recorded (10_state.md R12, 92_eei_decisions.md D1). Safe: there
  is no further step to model. -/
  | runEnded
  /-- No logical processor can step and at least one has recorded `#GP(0)`: never a success (60_exceptions.md R195). Safe: it
  stops where a real processor would enter a handler the spec does not describe. -/
  | stoppedByGP0
deriving DecidableEq, Repr

/-- Why an operation has no meaning. All are safe: the model stops where a processor may go on. -/
inductive Refusal where
  /-- Raised by an arm of `exec` without a meaning; no arm is one. -/
  | notModelled (mnemonic : String)
  /-- Raised by `step`: the operation's bytes are none of the admitted sequences, "the model refuses it" (30_encoding.md R61). -/
  | bytesNotAdmitted (bytes : List Byte)
  /-- Raised by CPUID: a leaf and sub-leaf "the model refuses", with "no meaning in this spec" (40_cpuid_enumeration.md R90). -/
  | cpuidLeafNotDescribed (leaf subleaf : W32)
  /-- Raised by RDMSR and WRMSR: not an RDT allocation register, "the model refuses an access" to it (41_msr_access.md R104). -/
  | notAnRdtMsr (address : W32)
deriving DecidableEq, Repr

/-- A logical processor right after reset (70_reset_and_hazards.md R224, R225, R227). The general registers are 0, DESIGN
CHOICE, unsafe: the spec gives them no value (log 1). The low half of IA32_PQR_ASSOC is 0, PRESUMED (R225; log 4). -/
def LpState.reset : LpState where
  eax := 0
  ebx := 0
  ecx := 0
  edx := 0
  pc := 0
  cpl := 0
  pqrCos := 0
  pqrLow := 0
  fault := none
  prog := []

/-- A cache right after reset: CDP off, every mask of a supported resource all 1s (70_reset_and_hazards.md R220 to R223). The
hidden part is DESIGN CHOICE (log 14, 15, 16). -/
def CacheState.reset (c : CacheCfg) : CacheState where
  cdp := false
  masks := if c.res then List.replicate (c.cosMax + 1) (fullMask c.cbmLen) else []
  hidden := { unsettled := [], override := false, lines := [] }

/-- One more than the largest domain number, so that every domain of the topology has a place in its list. -/
def domainCount (doms : List Nat) : Nat := doms.foldr (fun d n => max (d + 1) n) 0

/-- The machine of configuration `c` right after reset (70_reset_and_hazards.md R220 to R229). MBA delays are 0, PRESUMED
(R226; log 5). No request is under way and no handler runs, DESIGN CHOICE (log 16, log 35). -/
def State.resetWith (c : Cfg) : State where
  cfg := c
  lps := List.replicate c.lps.length LpState.reset
  l3 := List.replicate (domainCount (c.lps.map Place.l3dom)) (CacheState.reset c.l3)
  l2 := List.replicate (domainCount (c.lps.map Place.l2dom)) (CacheState.reset c.l2)
  mba := List.replicate (domainCount (c.lps.map Place.mbadom))
    (if c.resMba then List.replicate (c.mbaCosMax + 1) 0 else [])
  requests := []
  inSmm := []
  active := 0
  tick := 0
  schedule := []
  fresh := 0

/-- The machine right after reset, for the configuration `Cfg.vectorsA` (DESIGN CHOICE; log 2). -/
def State.reset : State := State.resetWith Cfg.vectorsA

end Sys2Proof.Machine
end

