-- ==== Sys2Proof/Machine/Ops.lean ====
section
/-! DEFINITION. The named operations over the state: per-processor and per-domain storage, the class bounds of `Cfg`, the end of
an operation, and taking `#GP(0)`. -/

namespace Sys2Proof.Machine

/-- The entry at index `n`; an index past the end reads as `dflt`, the entry's reset value (log 32). -/
def getAt {α : Type} (dflt : α) (l : List α) (n : Nat) : α := l.getD n dflt

/-- The list with entry `n` replaced, so that `getAt` reads the new value there and every other entry as before. -/
def putAt {α : Type} (dflt : α) : List α → Nat → α → List α
  | [], 0, v => [v]
  | [], n + 1, v => dflt :: putAt dflt [] n v
  | _ :: t, 0, v => v :: t
  | h :: t, n + 1, v => h :: putAt dflt t n v

/-- Logical processor `p`. -/
def State.lp (s : State) (p : Nat) : LpState := getAt LpState.reset s.lps p

/-- The state with logical processor `p` replaced. -/
def State.setLp (s : State) (p : Nat) (x : LpState) : State :=
  { s with lps := putAt LpState.reset s.lps p x }

/-- The logical processor that executes: `p` of the rules (00_scope.md section 6). -/
def State.me (s : State) : LpState := s.lp s.active

/-- The state with the executing logical processor replaced. -/
def State.setMe (s : State) (x : LpState) : State := s.setLp s.active x

/-- The cache of level `X` and domain `d`. -/
def State.cache (s : State) (X : Level) (d : Nat) : CacheState :=
  match X with
  | .l3 => getAt (CacheState.reset s.cfg.l3) s.l3 d
  | .l2 => getAt (CacheState.reset s.cfg.l2) s.l2 d

/-- The state with the cache of level `X` and domain `d` replaced. -/
def State.setCache (s : State) (X : Level) (d : Nat) (k : CacheState) : State :=
  match X with
  | .l3 => { s with l3 := putAt (CacheState.reset s.cfg.l3) s.l3 d k }
  | .l2 => { s with l2 := putAt (CacheState.reset s.cfg.l2) s.l2 d k }

/-- Mask register `n` of a cache (10_state.md R20, R21). -/
def CacheState.mask (c : CacheCfg) (k : CacheState) (n : Nat) : W32 :=
  getAt (fullMask c.cbmLen) k.masks n

/-- `x_mask d n` (10_state.md R29). -/
def State.mask (s : State) (X : Level) (d n : Nat) : W32 := (s.cache X d).mask (s.cfg.cache X) n

/-- Every mask register of the cache holds all 1s (43_cdp.md R159). -/
def CacheState.allMasksFull (c : CacheCfg) (k : CacheState) : Bool :=
  (List.range (c.cosMax + 1)).all fun n => k.mask c n == fullMask c.cbmLen

/-- Mask register `n` written: it is settled again after a hazardous toggle (42_cat.md R121; 92_eei_decisions.md D31). -/
def CacheState.writeMask (c : CacheCfg) (k : CacheState) (n : Nat) (m : W32) : CacheState :=
  { k with
    masks := putAt (fullMask c.cbmLen) k.masks n m
    hidden := { k.hidden with unsettled := k.hidden.unsettled.filter (· != n) } }

/-- The CDP enable bit written: no mask changes (43_cdp.md R151, R162); a change of the bit while some mask is not all 1s leaves
every mask unsettled (43_cdp.md R159, 92_eei_decisions.md D31). -/
def CacheState.writeCdp (c : CacheCfg) (k : CacheState) (b : Bool) : CacheState :=
  if b != k.cdp && !k.allMasksFull c then
    { k with cdp := b, hidden := { k.hidden with unsettled := List.range (c.cosMax + 1) } }
  else { k with cdp := b }

/-- `mba_thr d n` (10_state.md R29). -/
def State.mbaThr (s : State) (d n : Nat) : W16 := getAt 0 (getAt [] s.mba d) n

/-- The state with `mba_thr d n` replaced. -/
def State.setMbaThr (s : State) (d n : Nat) (v : W16) : State :=
  { s with mba := putAt [] s.mba d (putAt 0 (getAt [] s.mba d) n v) }

/-- The highest class numbers of the supported resources. -/
def cosMaxima (c : Cfg) : List Nat :=
  (if c.l3.res then [c.l3.cosMax] else []) ++ (if c.l2.res then [c.l2.cosMax] else []) ++
    (if c.resMba then [c.mbaCosMax] else [])

/-- `COS_MAX_ALL`: the largest class number any supported resource reports (00_scope.md R6); a free value where there is none
(log 12). -/
def cosMaxAll (c : Cfg) : Nat :=
  match cosMaxima c with
  | [] => Config.cosMaxNoResource
  | m :: more => more.foldl max m

/-- `X_COS_MAX_CDP = X_COS_MAX >> 1` (00_scope.md R7). -/
def cosMaxCdp (c : CacheCfg) : Nat := c.cosMax >>> 1

/-- `Cfg.PQR_LOW_VALID` (10_state.md R17). A value of zero touches no reserved bit whatever the bits are (DEDUCED; log 3). -/
def pqrLowValid (c : Cfg) (v : W32) : Bool :=
  v == 0 ||
    match c.pqrLow with
    | .below bound => decide (v.toNat < bound)
    | .unknown => Config.pqrLowValid v

/-- `Privileged(p)` of the executing logical processor: `cpl p = 0` (41_msr_access.md R103). -/
def State.privileged (s : State) : Bool := s.me.cpl == 0

/-- `pc <- pc + 1`: an operation that completes (10_state.md R12). -/
def State.advance (s : State) : State := s.setMe { s.me with pc := s.me.pc + 1 }

/-- TAKING AN EXCEPTION: `raise GP(0)`. The record (pc, ECX, the value of a `WRMSR`) is written for the executing logical processor
and nothing else changes (60_exceptions.md R195, 41_msr_access.md R106). A next state: there is no handler to go to. There is no
return from it beside it, for the spec has none: "there is no return instruction, no re-enabling and no nesting" (60_exceptions.md
R196). -/
def State.raiseGP0 (s : State) (value : Option W64) : Host.Outcome State Fault Refusal :=
  .next (s.setMe { s.me with fault := some { pc := s.me.pc, address := s.me.ecx, value := value } })

end Sys2Proof.Machine
end

