-- ==== Sys2Proof/Syntax.lean ====
section
/-! DEFINITION. The operations of the model, one constructor for each row of spec/opcode_table.json. -/

namespace Sys2Proof

/-- The four general registers (10_state.md R10). -/
inductive Reg where
  | eax
  | ecx
  | edx
  | ebx
deriving DecidableEq, Repr

/-- The four operations (41_msr_access.md R109 with R102). All operands but those of `LOAD` are implicit registers. -/
inductive Instr where
  /-- `CPUID` (40_cpuid_enumeration.md R80). -/
  | cpuid
  /-- `RDMSR` (41_msr_access.md R100). -/
  | rdmsr
  /-- `WRMSR` (41_msr_access.md R101). -/
  | wrmsr
  /-- `LOAD r, imm32`, the spec's own pseudo-operation (41_msr_access.md R102). -/
  | load (r : Reg) (imm : W32)
deriving DecidableEq, Repr

end Sys2Proof
end

