-- ==== Sys2Proof/Machine/Operands.lean ====
section
/-! DEFINITION. The operand forms: the four named registers, the MSR address in ECX, the 64-bit value EDX:EAX, and the leaf and
sub-leaf of CPUID (30_encoding.md R62, R63). There is no other operand form (41_msr_access.md R109). -/

namespace Sys2Proof.Machine

/-- `x[r]` of one logical processor (00_scope.md section 6). -/
def LpState.reg (x : LpState) : Reg → W32
  | .eax => x.eax
  | .ecx => x.ecx
  | .edx => x.edx
  | .ebx => x.ebx

/-- `x[r] <- v` of one logical processor. -/
def LpState.setReg (x : LpState) (r : Reg) (v : W32) : LpState :=
  match r with
  | .eax => { x with eax := v }
  | .ecx => { x with ecx := v }
  | .edx => { x with edx := v }
  | .ebx => { x with ebx := v }

/-- `x[r] <- v` of the executing logical processor. -/
def State.setReg (s : State) (r : Reg) (v : W32) : State := s.setMe (s.me.setReg r v)

/-- `value[63:32]`. -/
def hiWord (v : W64) : W32 := v.extractLsb' 32 32

/-- `value[31:0]`. -/
def loWord (v : W64) : W32 := v.extractLsb' 0 32

/-- The MSR address: the 32-bit content of ECX (30_encoding.md R62). -/
def State.msrAddress (s : State) : W32 := s.me.ecx

/-- The 64-bit MSR value a `WRMSR` writes: `EDX ++ EAX` (30_encoding.md R62). -/
def State.msrOperand (s : State) : W64 := s.me.edx ++ s.me.eax

/-- `EDX <- value[63:32]`, `EAX <- value[31:0]` (30_encoding.md R62). -/
def State.putMsrResult (s : State) (v : W64) : State :=
  (s.setReg .edx (hiWord v)).setReg .eax (loWord v)

end Sys2Proof.Machine
end

