-- ==== Sys2Proof/Machine/Cpuid.lean ====
section
/-! DEFINITION. `CPUID` (40_cpuid_enumeration.md R80 to R90): which output bits the configuration determines, leaf by leaf, and
the operation. -/

namespace Sys2Proof.Machine

/-- A 32-bit output of which the bits of `det` are determined, as in `known`, and the others unconstrained (00_scope.md R8). -/
structure PartialWord where
  det : W32
  known : W32
deriving DecidableEq, Repr

/-- The four outputs of one leaf and sub-leaf. -/
structure CpuidOutput where
  eax : PartialWord
  ebx : PartialWord
  ecx : PartialWord
  edx : PartialWord
deriving DecidableEq, Repr

/-- An output of which nothing is determined. -/
def openWord : PartialWord := { det := 0, known := 0 }

/-- Four outputs of which nothing is determined (92_eei_decisions.md D15). -/
def openOutput : CpuidOutput := { eax := openWord, ebx := openWord, ecx := openWord, edx := openWord }

/-- Leaf 07H, sub-leaf 0: EBX[15] = PQE (40_cpuid_enumeration.md R81). -/
def cpuidLeaf7 (c : Cfg) : CpuidOutput :=
  { openOutput with ebx := { det := bitAt 15 true, known := bitAt 15 c.pqe } }

/-- Leaf 10H, sub-leaf 0: EBX[1], EBX[2], EBX[3] (40_cpuid_enumeration.md R82). -/
def cpuidResources (c : Cfg) : CpuidOutput :=
  { openOutput with
    ebx := { det := 0xE, known := bitAt 1 c.l3.res ||| bitAt 2 c.l2.res ||| bitAt 3 c.resMba } }

/-- Leaf 10H, sub-leaf 1 or 2, of a supported cache: EAX[4:0] = CBM_LEN - 1, EBX within the mask length the share mask, ECX[2] = CDP,
EDX[15:0] = COS_MAX (40_cpuid_enumeration.md R83 to R87). EBX above the mask length is reserved (R85). -/
def cpuidCache (c : CacheCfg) : CpuidOutput where
  eax := { det := 0x1F, known := BitVec.ofNat 32 (c.cbmLen - 1) }
  ebx := { det := fullMask c.cbmLen, known := c.share }
  ecx := { det := bitAt 2 true, known := bitAt 2 c.cdp }
  edx := { det := 0xFFFF, known := BitVec.ofNat 32 c.cosMax }

/-- Leaf 10H, sub-leaf 3, where MBA is supported: EAX[11:0] = MBA_MAX - 1 (the place of the field is PRESUMED, log 13), ECX[2] =
MBA_LINEAR, EDX[15:0] = MBA_COS_MAX (40_cpuid_enumeration.md R88, R89). -/
def cpuidMba (c : Cfg) : CpuidOutput where
  eax := { det := 0xFFF, known := BitVec.ofNat 32 (c.mbaMax - 1) }
  ebx := openWord
  ecx := { det := bitAt 2 true, known := bitAt 2 c.mbaLinear }
  edx := { det := 0xFFFF, known := BitVec.ofNat 32 c.mbaCosMax }

/-- Leaf 10H by sub-leaf. Without PQE, or for a sub-leaf that is not a supported resource, nothing is determined
(40_cpuid_enumeration.md R81, R90; 92_eei_decisions.md D15). -/
def cpuidLeaf10 (c : Cfg) (sub : W32) : CpuidOutput :=
  if !c.pqe then openOutput
  else if sub = 0 then cpuidResources c
  else if sub = 1 ∧ c.l3.res then cpuidCache c.l3
  else if sub = 2 ∧ c.l2.res then cpuidCache c.l2
  else if sub = 3 ∧ c.resMba then cpuidMba c
  else openOutput

/-- `CpuidTable(Cfg, leaf, sub-leaf)`, none where "the model refuses the operation" (40_cpuid_enumeration.md R80, R90). -/
def cpuidTable (c : Cfg) (leaf sub : W32) : Option CpuidOutput :=
  if leaf = 0x7 ∧ sub = 0 then some (cpuidLeaf7 c)
  else if leaf = 0x10 then some (cpuidLeaf10 c sub)
  else none

/-- An output word with its undetermined bits drawn from `free`. -/
def PartialWord.fill (w : PartialWord) (free : W32) : W32 := mixBits w.det w.known free

/-- The four outputs written with four free words drawn, and those words used up (40_cpuid_enumeration.md R80; log 9). -/
def State.putCpuid (s : State) (o : CpuidOutput) : State :=
  { s.setMe { s.me with
      eax := o.eax.fill (Config.cpuidFree s.fresh)
      ebx := o.ebx.fill (Config.cpuidFree (s.fresh + 1))
      ecx := o.ecx.fill (Config.cpuidFree (s.fresh + 2))
      edx := o.edx.fill (Config.cpuidFree (s.fresh + 3)) } with
    fresh := s.fresh + 4 }

/-- `CPUID` (40_cpuid_enumeration.md R80): no exception, at every privilege level. -/
def execCpuid (s : State) : Host.Outcome State Fault Refusal :=
  match cpuidTable s.cfg s.me.eax s.me.ecx with
  | some o => .next (s.putCpuid o).advance
  | none => .refused (.cpuidLeafNotDescribed s.me.eax s.me.ecx)

end Sys2Proof.Machine
end

