-- ==== Sys2Proof/Machine/Load.lean ====
section
/-! DEFINITION. `LOAD r, imm32` (41_msr_access.md R102). -/

namespace Sys2Proof.Machine

/-- `x[r] <- imm32 ; pc <- pc + 1` (41_msr_access.md R102). -/
def execLoad (r : Reg) (imm : W32) (s : State) : Host.Outcome State Fault Refusal :=
  .next (s.setReg r imm).advance

end Sys2Proof.Machine
end

