-- ==== Sys2Proof/Machine/Mba.lean ====
section
/-! DEFINITION. Memory Bandwidth Allocation: what a delay value means and which delay a core gets (44_mba.md). -/

namespace Sys2Proof.Machine

/-- `P = 100 - MBA_MAX`, the input precision of linear mode, 0 where it is not positive (44_mba.md R175; log 20). -/
def mbaPrecision (c : Cfg) : Nat := 100 - c.mbaMax

/-- `Applied(v)`: rounded down to a multiple of the precision in linear mode, to a power of two otherwise (44_mba.md R175, R176).
Where the precision is not positive there is no rounding (92_eei_decisions.md D30; log 20). -/
def mbaApplied (c : Cfg) (v : Nat) : Nat :=
  if c.mbaLinear then (if mbaPrecision c = 0 then v else v - v % mbaPrecision c) else floorPow2 v

/-- What the register holds after a write of `v`: the value written, or the value applied (44_mba.md R178). -/
def mbaStored (c : Cfg) (v : W16) : W16 :=
  match c.readback with
  | .written => v
  | .rounded => BitVec.ofNat 16 (mbaApplied c v.toNat)

/-- The MBA domain of logical processor `p` (00_scope.md R5). -/
def mbaDom (c : Cfg) (p : Nat) : Nat := (c.place p).mbadom

/-- `ThreadDelay(p)`: 0 for a class that MBA does not cover (44_mba.md R180, R181) and where there is no MBA. -/
def State.threadDelay (s : State) (p : Nat) : Nat :=
  if s.cfg.resMba && decide ((s.lp p).pqrCos.toNat ≤ s.cfg.mbaCosMax) then
    mbaApplied s.cfg (s.mbaThr (mbaDom s.cfg p) (s.lp p).pqrCos.toNat).toNat
  else 0

/-- `CoreDelay(k)`: the largest of the delays of the core's logical processors, idle ones too (44_mba.md R180; log 33). -/
def State.coreDelay (s : State) (k : Nat) : Nat :=
  ((List.range s.cfg.lps.length).filter fun p => (s.cfg.place p).core == k).foldl (fun m p => max m (s.threadDelay p)) 0

end Sys2Proof.Machine
end

