-- ==== Sys2Proof/Machine/Msr.lean ====
section
/-! DEFINITION. The MSR space and the operations `RDMSR` and `WRMSR` (41_msr_access.md; 20_memory.md R42 to R45; 42_cat.md R121 to
R129; 43_cdp.md R151, R152; 44_mba.md R173, R174). -/

namespace Sys2Proof.Machine

/-- The registers of the interface (10_state.md R14). -/
inductive Msr where
  /-- IA32_PQR_ASSOC. -/
  | pqrAssoc
  /-- IA32_L3_QOS_CFG, IA32_L2_QOS_CFG. -/
  | qosCfg (X : Level)
  /-- IA32_L3_MASK_n, IA32_L2_MASK_n. -/
  | mask (X : Level) (n : Nat)
  /-- IA32_L2_QoS_Ext_BW_Thrtl_n. -/
  | mbaThrottle (n : Nat)
deriving DecidableEq, Repr

/-- The storage behind a register as one logical processor sees it (20_memory.md R42). -/
inductive MsrCell where
  | pqrAssoc (p : Nat)
  | qosCfg (X : Level) (d : Nat)
  | mask (X : Level) (d n : Nat)
  | mbaThrottle (d n : Nat)
deriving DecidableEq, Repr

/-- What an address is to this processor (41_msr_access.md R104). -/
inductive MsrLookup where
  /-- An implemented register. -/
  | implemented (r : Msr)
  /-- An RDT allocation address without a register: `#GP(0)`. -/
  | absent
  /-- Not an RDT allocation register: refused. -/
  | outside
deriving DecidableEq, Repr

/-- The register an address names in the address map, implemented or not (20_memory.md R43). The MBA block has no stated end but
the class count, which is a 16-bit field (20_memory.md R44). -/
def msrAt (a : W32) : Option Msr :=
  let n := a.toNat
  if n = 0xC8F then some .pqrAssoc
  else if n = 0xC81 then some (.qosCfg .l3)
  else if n = 0xC82 then some (.qosCfg .l2)
  else if 0xC90 ≤ n ∧ n ≤ 0xD0F then some (.mask .l3 (n - 0xC90))
  else if 0xD10 ≤ n ∧ n ≤ 0xD4F then some (.mask .l2 (n - 0xD10))
  else if 0xD50 ≤ n ∧ n ≤ 0xD50 + 65535 then some (.mbaThrottle (n - 0xD50))
  else none

/-- The configuration implements the register: the lines of `MsrExists` (41_msr_access.md R104). -/
def msrImplemented (c : Cfg) : Msr → Bool
  | .pqrAssoc => c.pqe
  | .qosCfg X => (c.cache X).cdp
  | .mask X n => (c.cache X).res && decide (n ≤ (c.cache X).cosMax)
  | .mbaThrottle n => c.resMba && decide (n ≤ c.mbaCosMax)

/-- The addresses of the interface: 0C81H, 0C82H, 0C8FH and the hierarchy 0C90H to 0D8FH (41_msr_access.md R104; 20_memory.md R44). -/
def isRdtAddress (a : W32) : Bool :=
  a == 0xC81 || a == 0xC82 || a == 0xC8F || (decide (0xC90 ≤ a.toNat) && decide (a.toNat ≤ 0xD8F))

/-- An implemented register, an RDT address without one, or an address outside the interface (41_msr_access.md R104). -/
def msrLookup (c : Cfg) (a : W32) : MsrLookup :=
  match msrAt a with
  | some r => if msrImplemented c r then .implemented r else if isRdtAddress a then .absent else .outside
  | none => .outside

/-- Storage resolution: the copy of a register that logical processor `p` sees (20_memory.md R42). -/
def msrResolve (c : Cfg) (p : Nat) : Msr → MsrCell
  | .pqrAssoc => .pqrAssoc p
  | .qosCfg X => .qosCfg X (c.dom X p)
  | .mask X n => .mask X (c.dom X p) n
  | .mbaThrottle n => .mbaThrottle (mbaDom c p) n

/-- The 64-bit content of a cell, reserved bits 0 (42_cat.md R126, R129; 43_cdp.md R151, R152; 44_mba.md R174). -/
def State.readCell (s : State) : MsrCell → W64
  | .pqrAssoc p => (s.lp p).pqrCos ++ (s.lp p).pqrLow
  | .qosCfg X d => if (s.cache X d).cdp then 1 else 0
  | .mask X d n => (s.mask X d n).setWidth 64
  | .mbaThrottle d n => (s.mbaThr d n).setWidth 64

/-- The write of a valid value to a cell (42_cat.md R121, R122, R128; 43_cdp.md R151, R152; 44_mba.md R173). -/
def State.writeCell (s : State) (v : W64) : MsrCell → State
  | .pqrAssoc p => s.setLp p { s.lp p with pqrCos := hiWord v, pqrLow := loWord v }
  | .qosCfg X d => s.setCache X d ((s.cache X d).writeCdp (s.cfg.cache X) (v.getLsbD 0))
  | .mask X d n => s.setCache X d ((s.cache X d).writeMask (s.cfg.cache X) n (lowBits (s.cfg.cache X).cbmLen v))
  | .mbaThrottle d n => s.setMbaThr d n (mbaStored s.cfg (v.setWidth 16))

/-- `MsrRead(p, a)` for the register `r` that `a` names (20_memory.md R42). -/
def State.msrRead (s : State) (p : Nat) (r : Msr) : W64 := s.readCell (msrResolve s.cfg p r)

/-- `MsrWrite(p, a, v)` for the register `r` that `a` names (20_memory.md R42). -/
def State.msrWrite (s : State) (p : Nat) (r : Msr) (v : W64) : State :=
  s.writeCell v (msrResolve s.cfg p r)

/-- `WriteValid(Cfg, a, v)` for the register that `a` names (41_msr_access.md R105). -/
def writeValid (c : Cfg) (r : Msr) (v : W64) : Bool :=
  match r with
  | .pqrAssoc => decide ((hiWord v).toNat ≤ cosMaxAll c) && pqrLowValid c (loWord v)
  | .qosCfg _ => v >>> 1 == 0
  | .mask X _ => v >>> (c.cache X).cbmLen == 0 && contig v.toNat
  | .mbaThrottle _ => v >>> 16 == 0 && decide ((v.setWidth 16).toNat ≤ c.mbaMax)

/-- `RDMSR` (41_msr_access.md R100), the checks in the order of R107: privilege, existence. -/
def execRdmsr (s : State) : Host.Outcome State Fault Refusal :=
  if s.privileged then
    match msrLookup s.cfg s.msrAddress with
    | .implemented r => .next (s.putMsrResult (s.msrRead s.active r)).advance
    | .absent => s.raiseGP0 none
    | .outside => .refused (.notAnRdtMsr s.msrAddress)
  else s.raiseGP0 none

/-- `WRMSR` (41_msr_access.md R101), the checks in the order of R107: privilege, existence, validity. -/
def execWrmsr (s : State) : Host.Outcome State Fault Refusal :=
  if s.privileged then
    match msrLookup s.cfg s.msrAddress with
    | .implemented r =>
      if writeValid s.cfg r s.msrOperand then .next (s.msrWrite s.active r s.msrOperand).advance
      else s.raiseGP0 (some s.msrOperand)
    | .absent => s.raiseGP0 (some s.msrOperand)
    | .outside => .refused (.notAnRdtMsr s.msrAddress)
  else s.raiseGP0 (some s.msrOperand)

end Sys2Proof.Machine
end

