-- ==== Sys2Proof/Machine/Dispatch.lean ====
section
/-! DEFINITION. One arm for each constructor of `Instr`, each a direct call of its meaning. -/

namespace Sys2Proof.Machine

def exec (i : Instr) (s : State) : Host.Outcome State Fault Refusal :=
  match i with
  | .cpuid => Sys2Proof.Machine.execCpuid s
  | .rdmsr => Sys2Proof.Machine.execRdmsr s
  | .wrmsr => Sys2Proof.Machine.execWrmsr s
  | .load r imm => Sys2Proof.Machine.execLoad r imm s

end Sys2Proof.Machine
end

