-- ==== Sys2Proof/WellFormed.lean ====
section
/-! DEFINITION. Well-formedness. An instruction is well formed by its type; the checks that can fail are the constraints
00_scope.md R5 places on the configuration record, one definition each. -/

namespace Sys2Proof

/-- Every term of `Instr` is well formed: `LOAD`'s register is one of four constructors and its constant a 32-bit word, and
the other operations have no operand (30_encoding.md R60, R61). No check can fail, so none has an ill-formed example. -/
def Instr.wf : Instr → Bool
  | .cpuid => true
  | .rdmsr => true
  | .wrmsr => true
  | .load _ _ => true

/-- `L3_COS_MAX <= 127`, since IA32_L3_MASK_n occupies 0C90H to 0D0FH. -/
def Cfg.l3CosMaxInBlock (c : Cfg) : Bool := decide (c.l3.cosMax ≤ 127)

/-- `L2_COS_MAX <= 63`, since IA32_L2_MASK_n is defined for n = [0,63]. -/
def Cfg.l2CosMaxInBlock (c : Cfg) : Bool := decide (c.l2.cosMax ≤ 63)

/-- `MBA_COS_MAX` is reported in a 16-bit field. -/
def Cfg.mbaCosMaxInField (c : Cfg) : Bool := decide (c.mbaCosMax ≤ 65535)

/-- `MBA_MAX >= 1`. -/
def Cfg.mbaMaxPositive (c : Cfg) : Bool := decide (1 ≤ c.mbaMax)

/-- A cache's CDP implies its CAT. -/
def Cfg.cdpNeedsCat (c : Cfg) : Bool := (!c.l3.cdp || c.l3.res) && (!c.l2.cdp || c.l2.res)

/-- Any resource implies `PQE`. -/
def Cfg.resNeedsPqe (c : Cfg) : Bool := !(c.l3.res || c.l2.res || c.resMba) || c.pqe

/-- `LP` is not empty. -/
def Cfg.someLp (c : Cfg) : Bool := !c.lps.isEmpty

/-- `l3dom`, `l2dom` and `mbadom` are constant on the logical processors of one core. -/
def Cfg.coresShareDomains (c : Cfg) : Bool :=
  c.lps.all fun a => c.lps.all fun b =>
    !(a.core == b.core) || (a.l3dom == b.l3dom && a.l2dom == b.l2dom && a.mbadom == b.mbadom)

/-- The constraints of 00_scope.md R5. (That the mask lengths lie in 1..32 is in the type of `CacheCfg.cbmLenM1`.) -/
def Cfg.wf (c : Cfg) : Bool :=
  c.l3CosMaxInBlock && c.l2CosMaxInBlock && c.mbaCosMaxInField && c.mbaMaxPositive &&
    c.cdpNeedsCat && c.resNeedsPqe && c.someLp && c.coresShareDomains

end Sys2Proof
end

