-- ==== Sys2Proof/Decode.lean ====
section
/-! DEFINITION. Decoding of one operation's bytes, total and rejecting by name, and the encoder
(30_encoding.md R60, R61; 92_eei_decisions.md D3). The byte values are PRESUMED: the spec supplies them from general
knowledge (93_implementation_defined.md G1, G2; log 19). -/

namespace Sys2Proof

/-- Why a byte sequence is not one of the admitted ones (30_encoding.md R61: it is refused, not faulted). -/
inductive DecodeError where
  /-- There is no byte. -/
  | noBytes
  /-- The first byte is none of 0FH, B8H to BBH. -/
  | firstByteNotAdmitted (b : Byte)
  /-- After 0FH, the second byte is none of A2H, 32H, 30H. -/
  | secondByteNotAdmitted (b : Byte)
  /-- The operation's bytes end before its length is reached. -/
  | truncated
  /-- There are more bytes than the operation has. -/
  | trailingBytes
deriving DecidableEq, Repr

/-- What the decoder answers. -/
inductive Decoded where
  | instr (i : Instr)
  | reject (why : DecodeError)
deriving DecidableEq, Repr

/-- `rd` of a `LOAD`: 0 EAX, 1 ECX, 2 EDX, 3 EBX (30_encoding.md R61). -/
def Reg.number : Reg → BitVec 2
  | .eax => 0
  | .ecx => 1
  | .edx => 2
  | .ebx => 3

/-- The register of an `rd` field (30_encoding.md R61). -/
def Reg.ofNumber (n : BitVec 2) : Reg :=
  if n = 0 then .eax else if n = 1 then .ecx else if n = 2 then .edx else .ebx

/-- `imm32 = i3 ++ i2 ++ i1 ++ i0`: the first byte is the least significant (30_encoding.md R61). -/
def immOfBytes (i0 i1 i2 i3 : Byte) : W32 := i3 ++ i2 ++ i1 ++ i0

/-- The bytes of a 32-bit constant, least significant first (30_encoding.md R61). -/
def bytesOfImm (v : W32) : List Byte :=
  [v.extractLsb' 0 8, v.extractLsb' 8 8, v.extractLsb' 16 8, v.extractLsb' 24 8]

/-- The two-byte opcodes, after the byte 0FH (30_encoding.md R60). -/
def decodeTwoByte : List Byte → Decoded
  | [] => .reject .truncated
  | b :: more =>
    if b = 0xA2 then (if more = [] then .instr .cpuid else .reject .trailingBytes)
    else if b = 0x32 then (if more = [] then .instr .rdmsr else .reject .trailingBytes)
    else if b = 0x30 then (if more = [] then .instr .wrmsr else .reject .trailingBytes)
    else .reject (.secondByteNotAdmitted b)

/-- The four immediate bytes of a `LOAD` (30_encoding.md R61). -/
def decodeLoad (r : Reg) : List Byte → Decoded
  | [i0, i1, i2, i3] => .instr (.load r (immOfBytes i0 i1 i2 i3))
  | _ :: _ :: _ :: _ :: _ :: _ => .reject .trailingBytes
  | _ => .reject .truncated

/-- One operation from its bytes in memory order. The first byte tells the length (30_encoding.md R61). -/
def decode : List Byte → Decoded
  | [] => .reject .noBytes
  | b :: more =>
    if b = 0x0F then decodeTwoByte more
    else if b.extractLsb' 2 6 = 0b101110#6 then decodeLoad (Reg.ofNumber (b.extractLsb' 0 2)) more
    else .reject (.firstByteNotAdmitted b)

/-- The bytes of an operation in memory order (30_encoding.md R60, R61; spec/opcode_table.json). -/
def encode : Instr → List Byte
  | .cpuid => [0x0F, 0xA2]
  | .rdmsr => [0x0F, 0x32]
  | .wrmsr => [0x0F, 0x30]
  | .load r imm => (0b101110#6 ++ r.number) :: bytesOfImm imm

/-- The length in bytes that the first byte announces, none where no operation starts so (30_encoding.md R61). -/
def lengthOf : List Byte → Option Nat
  | [] => none
  | b :: _ => if b = 0x0F then some 2 else if b.extractLsb' 2 6 = 0b101110#6 then some 5 else none

/-- The `n` bytes of a number with the first byte most significant: the numbering of spec/opcode_table.json. -/
def bytesMsbFirst : Nat → Nat → List Byte
  | 0, _ => []
  | n + 1, w => BitVec.ofNat 8 (w >>> (8 * n)) :: bytesMsbFirst n w

/-- The bytes of a table word of `nbits` bits: its own bytes, then zeros as far as the operation that the first byte
announces needs them, and nothing after the operation's end. See log 19. -/
def tableWordBytes (nbits w : Nat) : List Byte :=
  let own := bytesMsbFirst (nbits / 8) w
  match lengthOf own with
  | some n => (own ++ List.replicate 5 0).take n
  | none => own

/-- The instruction the decoder reads from a word of spec/opcode_table.json, numbered as the table numbers it. -/
def decodeTableWord (nbits w : Nat) : Option Instr :=
  match decode (tableWordBytes nbits w) with
  | .instr i => some i
  | .reject _ => none

end Sys2Proof
end

