-- ==== Sys2Proof/Machine/Fetch.lean ====
section
/-! DEFINITION. What surrounds an operation: which logical processor moves, the operation it fetches, when a run is over, and the
loading of one operation (10_state.md R12; 20_memory.md R53; 60_exceptions.md R195). -/

namespace Sys2Proof.Machine

/-- Logical processor `p` can take a step: it exists, has recorded no `#GP(0)`, and its program is not at its end
(10_state.md R12, 60_exceptions.md R195). -/
def State.canStep (s : State) (p : Nat) : Bool :=
  decide (p < s.cfg.lps.length) && (s.lp p).fault.isNone && decide ((s.lp p).pc < (s.lp p).prog.length)

/-- The logical processors that can take a step. -/
def State.runnable (s : State) : List Nat := (List.range s.cfg.lps.length).filter s.canStep

/-- The one of `ps` that the free interleaving picks (20_memory.md R53; log 8). -/
def State.freeMover (s : State) (ps : List Nat) : Nat := ps.getD (Config.nextMover s.tick % ps.length) 0

/-- The logical processor that moves next, none when no one can. Where only one can step it moves; else the head of the schedule,
if it can step; else the free choice (20_memory.md R53; log 8). -/
def State.mover (s : State) : Option Nat :=
  match s.runnable with
  | [] => none
  | [p] => some p
  | ps =>
    match s.schedule with
    | q :: _ => if s.canStep q then some q else some (s.freeMover ps)
    | [] => some (s.freeMover ps)

/-- The turn given to logical processor `p`: it becomes the executing one, and the interleaving moves on. -/
def State.turnTo (s : State) (p : Nat) : State :=
  { s with active := p, tick := s.tick + 1, schedule := s.schedule.tail }

/-- The bytes of the operation at the program counter of `p` (10_state.md R12). -/
def State.fetch (s : State) (p : Nat) : List Byte := getAt [] (s.lp p).prog (s.lp p).pc

/-- Why a machine in which no logical processor can step has stopped (92_eei_decisions.md D1, D4). -/
def State.stopReason (s : State) : Fault :=
  if (List.range s.cfg.lps.length).any fun p => (s.lp p).fault.isSome then .stoppedByGP0 else .runEnded

/-- One operation loaded where logical processor `s.active` fetches next, that processor free to step, and the next turn asked for
it (log 6). -/
def State.loadOperation (s : State) (bytes : List Byte) : State :=
  { s.setMe { s.me with prog := putAt [] s.me.prog s.me.pc bytes, fault := none } with
    schedule := s.active :: s.schedule }

end Sys2Proof.Machine
end

