-- ==== Sys2Proof/Machine/Step.lean ====
section
/-! DEFINITION. One step of the machine: one operation of one logical processor, indivisible (20_memory.md R48, R53). -/

namespace Sys2Proof.Machine

/-- One step of logical processor `p`: the operation at its program counter, or a refusal of bytes that are no operation. -/
def State.stepOf (s : State) (p : Nat) : Host.Outcome State Fault Refusal :=
  match decode (s.fetch p) with
  | .instr i => exec i (s.turnTo p)
  | .reject _ => .refused (.bytesNotAdmitted (s.fetch p))

/-- One step: of the logical processor whose turn it is, or the machine's stop when none can step. -/
def step (s : State) : Host.Outcome State Fault Refusal :=
  match s.mover with
  | some p => s.stepOf p
  | none => .fault s.stopReason

/-- The instruction of a table word stored where `step` fetches its next instruction (log 6, log 19). -/
def State.withFetchWord (s : State) (nbits w : Nat) : State := s.loadOperation (tableWordBytes nbits w)

end Sys2Proof.Machine
end

