-- ==== Sys2Proof/Machine/Cat.lean ====
section
/-! DEFINITION. What the masks mean: effective mask, overlap, fraction, the tag of a request and the nominal fill rule
(42_cat.md R130 to R140; 43_cdp.md R153 to R157). Placement is a relation: `none` as a mask means unconstrained placement
(92_eei_decisions.md D18, D19; log 26). -/

namespace Sys2Proof.Machine

/-- The index of the data mask of class `c` under CDP: `c << 1` (43_cdp.md R153). -/
def dataMaskIndex (c : Nat) : Nat := c <<< 1

/-- The index of the code mask of class `c` under CDP: `(c << 1) + 1` (43_cdp.md R153). -/
def codeMaskIndex (c : Nat) : Nat := (c <<< 1) + 1

/-- The address of mask register 0 of a cache: `base` (30_encoding.md R65). -/
def maskBase : Level → Nat
  | .l3 => 0xC90
  | .l2 => 0xD10

/-- `data_mask_address(n)` (43_cdp.md R153). -/
def dataMaskAddress (X : Level) (n : Nat) : Nat := maskBase X + (n <<< 1)

/-- `code_mask_address(n)` (43_cdp.md R153). -/
def codeMaskAddress (X : Level) (n : Nat) : Nat := maskBase X + (n <<< 1) + 1

/-- The mask register that governs a request of class `c`, by the mode of the cache; none where there is none
(42_cat.md R135, R139; 43_cdp.md R155 to R157). -/
def governingMask (cc : CacheCfg) (cdpOn : Bool) (c : Nat) (kind : RequestKind) : Option Nat :=
  if !cc.res then none
  else if cc.cdp && cdpOn then
    if codeMaskIndex c ≤ cc.cosMax then
      some (match kind with
        | .data => dataMaskIndex c
        | .code => codeMaskIndex c)
    else none
  else if c ≤ cc.cosMax then some c
  else none

/-- `EffMask_X(p, kind)` for a request tagged with class `c` of logical processor `p` (42_cat.md R135; 43_cdp.md R155); none is
"unspecified". -/
def State.effMaskOf (s : State) (X : Level) (p : Nat) (c : W32) (kind : RequestKind) : Option W32 :=
  (governingMask (s.cfg.cache X) (s.cache X (s.cfg.dom X p)).cdp c.toNat kind).map
    (s.mask X (s.cfg.dom X p))

/-- `EffMask_X(p, kind)` of logical processor `p` in its current class. -/
def State.effMask (s : State) (X : Level) (p : Nat) (kind : RequestKind) : Option W32 :=
  s.effMaskOf X p (s.lp p).pqrCos kind

/-- `overlap(a, b)`: two masks share a 1 bit (42_cat.md R133). -/
def overlap (a b : W32) : Bool := (a &&& b) != 0

/-- `popcnt(mask) / X_CBM_LEN`: the fraction of the cache a mask lets a class allocate into (42_cat.md R134). -/
def maskFraction (cc : CacheCfg) (m : W32) : ℚ := (popcnt m : ℚ) / (cc.cbmLen : ℚ)

/-- The mask that confines a request to level `X`, none when its placement is unconstrained. -/
def Request.confines (r : Request) : Level → Option W32
  | .l3 => r.l3
  | .l2 => r.l2

/-- The mask in force for a request issued now: the effective mask, or none while the cache is unsettled after a hazardous CDP
toggle (43_cdp.md R159, 92_eei_decisions.md D31; log 14). DESIGN CHOICE, safe: a request issued while the cache is unsettled stays
unconfined when it is filled after the cache is settled again (log 34). -/
def State.maskInForce (s : State) (X : Level) (p : Nat) (kind : RequestKind) : Option W32 :=
  if (s.cache X (s.cfg.dom X p)).hidden.unsettled = [] then s.effMask X p kind else none

/-- The request for `line` that logical processor `p` issues now (42_cat.md R130; 20_memory.md R55, R58). -/
def State.request (s : State) (p : Nat) (kind : RequestKind) (line : Nat) : Request where
  lp := p
  kind := kind
  line := line
  cos := (s.lp p).pqrCos
  l3 := s.maskInForce .l3 p kind
  l2 := s.maskInForce .l2 p kind

/-- An override is in force in cache `d` of level `X`, so that its masks confine nothing. 92_eei_decisions.md D18 names the three:
power features (60_exceptions.md R207), CDP hazards (70_reset_and_hazards.md R233, D31) and SMM (60_exceptions.md R204,
70_reset_and_hazards.md R242). That a handler on any logical processor counts for every cache is DESIGN CHOICE, safe (log 35). -/
def State.overridden (s : State) (X : Level) (d : Nat) : Bool :=
  (s.cache X d).hidden.override || !(s.cache X d).hidden.unsettled.isEmpty || !s.inSmm.isEmpty

/-- The nominal fill rule: a line brought in by request `r` may be placed in unit `i` of its level-`X` cache (42_cat.md R136). A
unit is a bit of the mask length (R132). An override in force when the line is placed lifts the confinement. DESIGN CHOICE (log 34),
for a request issued before a hazardous toggle: filled inside the window it is unconfined, since 92_eei_decisions.md D18 and D31 go
before 20_memory.md R58 there (safe); filled when the cache is settled again it keeps its old mask by R58 (unsafe). -/
def State.mayFill (s : State) (r : Request) (X : Level) (i : Nat) : Bool :=
  decide (i < (s.cfg.cache X).cbmLen) &&
    (s.overridden X (s.cfg.dom X r.lp) ||
      match r.confines X with
      | some m => m.getLsbD i
      | none => true)

/-- A request hits when its cache holds the line, whatever unit it is in (42_cat.md R138). -/
def State.hits (s : State) (X : Level) (d line : Nat) : Bool :=
  (s.cache X d).hidden.lines.any fun l => l.addr == line

/-- A platform agent that carries no class may place a line in unit `i`: the unit's share bit is 1
(40_cpuid_enumeration.md R85, 42_cat.md R140). -/
def agentMayFill (cc : CacheCfg) (i : Nat) : Bool := decide (i < cc.cbmLen) && cc.share.getLsbD i

end Sys2Proof.Machine
end

