-- ==== Sys2Proof/Machine/Platform.lean ====
section
/-! DEFINITION. Events that are not operations of a program: requests and fills, power management, SMM, reset (42_cat.md R130, R136,
R140; 60_exceptions.md R203, R204, R207 to R210; 70_reset_and_hazards.md R229). They are not steps of the machine
(92_eei_decisions.md D34; log 17, log 35). -/

namespace Sys2Proof.Machine

/-- An event of the platform. -/
inductive PlatformEvent where
  /-- Logical processor `p` issues a request for `line` (42_cat.md R130). -/
  | issue (p : Nat) (kind : RequestKind) (line : Nat)
  /-- The request `r`, missing in level `X`, brings its line into unit `unit`; the lines of `evicted` leave. -/
  | fill (r : Request) (X : Level) (unit : Nat) (evicted : List Nat)
  /-- The request `r` is done with. -/
  | retire (r : Request)
  /-- A platform agent without a class brings `line` into unit `unit` of cache `d` of level `X`. -/
  | agentFill (X : Level) (d line unit : Nat) (evicted : List Nat)
  /-- Power management begins or ends overriding the masks of a cache (60_exceptions.md R207). -/
  | setOverride (X : Level) (d : Nat) (on : Bool)
  /-- Power management flushes a cache on entry to an idle state: only the lines of `kept` stay (60_exceptions.md R208). -/
  | flush (X : Level) (d : Nat) (kept : List Nat)
  /-- An SMI is delivered to logical processor `p`, whose handler starts (60_exceptions.md R203). -/
  | smi (p : Nat)
  /-- The handler on `p` executes a `WRMSR` of `v` to register `r` (60_exceptions.md R204). -/
  | smmWrite (p : Nat) (r : Msr) (v : W64)
  /-- The handler on `p` returns (60_exceptions.md R203). -/
  | smmReturn (p : Nat)
  /-- Logical processor `p` enters C6 and leaves it (60_exceptions.md R209). -/
  | c6 (p : Nat)
  /-- The package enters a C-state and leaves it (60_exceptions.md R210). -/
  | packageCState
  /-- The one whole-machine reset (70_reset_and_hazards.md R229). -/
  | reset
deriving DecidableEq, Repr

/-- The state with the hidden part of one cache replaced. -/
def State.setHidden (s : State) (X : Level) (d : Nat) (h : CacheHidden) : State :=
  s.setCache X d { s.cache X d with hidden := h }

/-- A line brought into a unit, some lines leaving (42_cat.md R136: which line is evicted is not specified). -/
def CacheHidden.place (h : CacheHidden) (line unit : Nat) (evicted : List Nat) : CacheHidden :=
  { h with lines := { addr := line, unit := unit } :: h.lines.filter fun l => !evicted.contains l.addr }

/-- The event can happen. A logical processor of the configuration can issue a request at any time; one that takes no further step,
because it has recorded `#GP(0)` or is at the end of its program, still can, which 60_exceptions.md R195 and 42_cat.md R130 leave open:
DESIGN CHOICE, safe (log 37). A fill is for a request that has been issued, of a line not yet held, by the fill rule; an agent's fill by
the share mask. A handler writes what `WRMSR` would accept (41_msr_access.md R101, R104, R105), from the SMI until it returns. DESIGN
CHOICE, both safe (log 35): no SMI is delivered to a logical processor already in SMM, which 60_exceptions.md R202 leaves open; and
one with a recorded `#GP(0)` can take an SMI whose handler writes its registers, which R195 leaves open. -/
def PlatformEvent.possible (e : PlatformEvent) (s : State) : Bool :=
  match e with
  | .issue p _ _ => decide (p < s.cfg.lps.length)
  | .fill r X unit _ => s.requests.contains r && s.mayFill r X unit && !s.hits X (s.cfg.dom X r.lp) r.line
  | .retire r => s.requests.contains r
  | .agentFill X d line unit _ => agentMayFill (s.cfg.cache X) unit && !s.hits X d line
  | .setOverride _ _ _ => true
  | .flush _ _ _ => true
  | .smi p => decide (p < s.cfg.lps.length) && !s.inSmm.contains p
  | .smmWrite p r v => s.inSmm.contains p && msrImplemented s.cfg r && writeValid s.cfg r v
  | .smmReturn p => s.inSmm.contains p
  | .c6 _ => true
  | .packageCState => true
  | .reset => true

/-- A logical processor after a reset event: as `LpState.reset` has it (70_reset_and_hazards.md R224, R225, R227), but for the privilege
level, an input that stays "as given" (92_eei_decisions.md D23) because no rule changes it (10_state.md R29, 41_msr_access.md R103; log
25). Its program is emptied, DESIGN CHOICE (log 6). -/
def LpState.resetEvent (x : LpState) : LpState := { LpState.reset with cpl := x.cpl }

/-- The machine after a reset event: every field as `State.resetWith` has it (70_reset_and_hazards.md R229), but for the privilege
levels given and the MODEL's own counters and schedule, which go on, so that no free value is drawn a second time because of a reset
(00_scope.md R8; DESIGN CHOICE, log 8, log 9). -/
def State.resetEvent (s : State) : State :=
  { State.resetWith s.cfg with
    lps := s.lps.map LpState.resetEvent, tick := s.tick, schedule := s.schedule, fresh := s.fresh }

/-- What the event does to the state. SMI delivery, the handler's return, C6 and package C-states leave every register as it is
(60_exceptions.md R203, R209, R210; 92_eei_decisions.md D34). A handler is software that writes the registers in the class of the
thread it interrupted (R204); it leaves that thread's general registers as they are, PRESUMED (log 36). -/
def PlatformEvent.apply (e : PlatformEvent) (s : State) : State :=
  match e with
  | .issue p kind line => { s with requests := s.request p kind line :: s.requests }
  | .fill r X unit evicted =>
    let d := s.cfg.dom X r.lp
    s.setHidden X d ((s.cache X d).hidden.place r.line unit evicted)
  | .retire r => { s with requests := s.requests.erase r }
  | .agentFill X d line unit evicted => s.setHidden X d ((s.cache X d).hidden.place line unit evicted)
  | .setOverride X d on => s.setHidden X d { (s.cache X d).hidden with override := on }
  | .flush X d kept =>
    s.setHidden X d { (s.cache X d).hidden with
      lines := (s.cache X d).hidden.lines.filter fun l => kept.contains l.addr }
  | .smi p => { s with inSmm := p :: s.inSmm }
  | .smmWrite p r v => s.msrWrite p r v
  | .smmReturn p => { s with inSmm := s.inSmm.erase p }
  | .c6 _ => s
  | .packageCState => s
  | .reset => s.resetEvent

end Sys2Proof.Machine
end

