-- ==== Sys2Proof/Safety.lean ====
section
/-! DEFINITION. The terms claims are stated in: the invariants of 10_state.md R29, a successful end, what `#GP(0)` leaves, the
frames (what stays as it is), and the state with its hidden part erased. -/

namespace Sys2Proof.Machine

/-- The invariants every reachable state satisfies (10_state.md R29), with three of the model's: a CDP bit is 1 only where its
register exists (10_state.md R18, R19), the unsettled indices name mask registers (log 14), and a request under way carries masks
inside the mask length (log 27). -/
structure State.Inv (s : State) : Prop where
  masksContig : ∀ X d n, contig (s.mask X d n).toNat = true
  masksInLength : ∀ X d n, (s.mask X d n).toNat < 2 ^ (s.cfg.cache X).cbmLen
  classesInRange : ∀ p, (s.lp p).pqrCos.toNat ≤ cosMaxAll s.cfg
  lowHalvesLegal : ∀ p, pqrLowValid s.cfg (s.lp p).pqrLow = true
  delaysInRange : ∀ d n, (s.mbaThr d n).toNat ≤ s.cfg.mbaMax
  cdpWherePresent : ∀ X d, (s.cache X d).cdp = true → (s.cfg.cache X).cdp = true
  unsettledInRange : ∀ X d n, n ∈ (s.cache X d).hidden.unsettled → n ≤ (s.cfg.cache X).cosMax
  requestsInLength : ∀ r, r ∈ s.requests → ∀ X m, r.confines X = some m → m.toNat < 2 ^ (s.cfg.cache X).cbmLen

/-- Some logical processor of the configuration has recorded `#GP(0)`. -/
def State.someFault (s : State) : Prop := ∃ p, p < s.cfg.lps.length ∧ (s.lp p).fault ≠ none

/-- Every logical processor of the configuration is at the end of its program without a recorded fault: the only success
(10_state.md R12, 60_exceptions.md R195). -/
def State.succeeded (s : State) : Prop :=
  ∀ p, p < s.cfg.lps.length → (s.lp p).fault = none ∧ (s.lp p).prog.length ≤ (s.lp p).pc

/-- What no operation changes: the configuration, the turn, the requests under way, the processors in SMM, and every logical
processor but the executing one. -/
structure State.SameSurroundings (s t : State) : Prop where
  cfg : t.cfg = s.cfg
  active : t.active = s.active
  tick : t.tick = s.tick
  schedule : t.schedule = s.schedule
  requests : t.requests = s.requests
  inSmm : t.inSmm = s.inSmm
  others : ∀ q, q ≠ s.active → t.lp q = s.lp q

/-- The caches (registers and hidden part) and the MBA delay registers are as they were. -/
structure State.SameDomains (s t : State) : Prop where
  caches : ∀ X d, t.cache X d = s.cache X d
  delays : ∀ d n, t.mbaThr d n = s.mbaThr d n

/-- Every RDT register of every logical processor reads as it did. -/
def State.SameMsrs (s t : State) : Prop := ∀ q r, t.msrRead q r = s.msrRead q r

/-- The parts of a logical processor that are neither a general register nor the program counter are as they were. -/
structure LpState.SameStanding (x y : LpState) : Prop where
  cpl : y.cpl = x.cpl
  pqrCos : y.pqrCos = x.pqrCos
  pqrLow : y.pqrLow = x.pqrLow
  fault : y.fault = x.fault
  prog : y.prog = x.prog

/-- The executing logical processor has recorded `#GP(0)` and nothing else has changed (60_exceptions.md R195, 41_msr_access.md
R106). -/
structure State.TookGP0 (s t : State) (value : Option W64) : Prop where
  record : t.me.fault = some { pc := s.me.pc, address := s.me.ecx, value := value }
  regs : ∀ r, t.me.reg r = s.me.reg r
  pc : t.me.pc = s.me.pc
  cpl : t.me.cpl = s.me.cpl
  prog : t.me.prog = s.me.prog
  pqrCos : t.me.pqrCos = s.me.pqrCos
  pqrLow : t.me.pqrLow = s.me.pqrLow
  fresh : t.fresh = s.fresh
  surroundings : s.SameSurroundings t
  domains : s.SameDomains t

/-- An operation that completed and wrote only general registers of the executing logical processor: its program counter has moved
on by one, and everything else is as it was but for the registers and the count of free words, said beside it. -/
structure State.CompletedInRegs (s t : State) : Prop where
  pc : t.me.pc = s.me.pc + 1
  standing : s.me.SameStanding t.me
  surroundings : s.SameSurroundings t
  domains : s.SameDomains t

/-- A `WRMSR` that completed: the general registers, the privilege level, the program and the fault record are as they were, the
program counter has moved on, and nothing outside the registers has changed but for the executing processor. What the MSRs hold
is said beside it. -/
structure State.WroteMsr (s t : State) : Prop where
  regs : ∀ r, t.me.reg r = s.me.reg r
  pc : t.me.pc = s.me.pc + 1
  cpl : t.me.cpl = s.me.cpl
  prog : t.me.prog = s.me.prog
  fault : t.me.fault = s.me.fault
  fresh : t.fresh = s.fresh
  surroundings : s.SameSurroundings t

/-- The cache with its hidden part erased. -/
def CacheState.eraseHidden (k : CacheState) : CacheState :=
  { k with hidden := { unsettled := [], override := false, lines := [] } }

/-- The state with what no software can read erased (10_state.md R25 to R27). -/
def State.eraseHidden (s : State) : State :=
  { s with l3 := s.l3.map CacheState.eraseHidden, l2 := s.l2.map CacheState.eraseHidden, requests := [], inSmm := [] }

/-- The outcome of a step with the hidden part of a next state erased. -/
def eraseOutcome : Host.Outcome State Fault Refusal → Host.Outcome State Fault Refusal
  | .next t => .next t.eraseHidden
  | .fault r => .fault r
  | .refused r => .refused r

/-- `MsrExists(Cfg, a)` as 41_msr_access.md R104 writes it. -/
def msrExists (c : Cfg) (a : Nat) : Prop :=
  (a = 0xC8F ∧ c.pqe = true) ∨
  (a = 0xC81 ∧ c.l3.cdp = true) ∨
  (a = 0xC82 ∧ c.l2.cdp = true) ∨
  (0xC90 ≤ a ∧ a ≤ 0xC90 + c.l3.cosMax ∧ c.l3.res = true) ∨
  (0xD10 ≤ a ∧ a ≤ 0xD10 + c.l2.cosMax ∧ c.l2.res = true) ∨
  (0xD50 ≤ a ∧ a ≤ 0xD50 + c.mbaCosMax ∧ c.resMba = true)

/-- The RDT allocation addresses of 41_msr_access.md R104: 0C81H, 0C82H, 0C8FH and 0C90H to 0D8FH. -/
def rdtAddress (a : Nat) : Prop := a = 0xC81 ∨ a = 0xC82 ∨ a = 0xC8F ∨ (0xC90 ≤ a ∧ a ≤ 0xD8F)

/-- The ResID of a cache: the sub-leaf that describes it (40_cpuid_enumeration.md R82). -/
def resId : Level → W32
  | .l3 => 1
  | .l2 => 2

/-- The address of the QOS_CFG register of a cache (10_state.md R18, R19). -/
def qosCfgAddress : Level → W32
  | .l3 => 0xC81
  | .l2 => 0xC82

/-- What register `r` reads after a valid write of `v`: `v` itself, but for an MBA delay where the read-back is rounded
(44_mba.md R178). -/
def writtenValue (c : Cfg) (r : Msr) (v : W64) : W64 :=
  match r with
  | .mbaThrottle _ => (mbaStored c (v.setWidth 16)).setWidth 64
  | _ => v

end Sys2Proof.Machine
end

