-- ==== Sys2Proof/Certificates/Slice0/Obligations.lean ====
section
/-! DEFINITION. The statements for the provers. Each docstring names the rules of spec/ it formalises. -/

open Sys2Proof Sys2Proof.Machine

/-! Encoding -/

/-- 30_encoding.md R60, R61: the bytes of the four operations, written out from the tables, and three table words. The byte values
are PRESUMED (log 19). -/
def Obligations.SpecBytesDecode : Prop :=
  decode [0x0F, 0xA2] = .instr .cpuid ∧
  decode [0x0F, 0x32] = .instr .rdmsr ∧
  decode [0x0F, 0x30] = .instr .wrmsr ∧
  decode [0xB8, 0x10, 0x00, 0x00, 0x00] = .instr (.load .eax 0x10) ∧
  decode [0xB9, 0x8F, 0x0C, 0x00, 0x00] = .instr (.load .ecx 0xC8F) ∧
  decode [0xBA, 0x01, 0x02, 0x03, 0x04] = .instr (.load .edx 0x04030201) ∧
  decode [0xBB, 0x00, 0x00, 0x00, 0x80] = .instr (.load .ebx 0x80000000) ∧
  decodeTableWord 16 0x0FA2 = some .cpuid ∧
  decodeTableWord 16 0x0F32 = some .rdmsr ∧
  decodeTableWord 16 0x0F30 = some .wrmsr

/-- 30_encoding.md R60, R61: decoding an operation's bytes gives it back, with every operand at every value. -/
def Obligations.DecodeOfEncode : Prop := ∀ i : Instr, decode (encode i) = .instr i

/-- 30_encoding.md R61, 92_eei_decisions.md D3: the admitted byte sequences are exactly the encodings, each of the operation it is the
encoding of. -/
def Obligations.EncodeOfDecode : Prop := ∀ (bytes : List Byte) (i : Instr), decode bytes = .instr i ↔ encode i = bytes

/-! The step -/

/-- A step runs the operation at the program counter of the logical processor whose turn it is, and giving it the turn changes
nothing the operation reads. -/
def Obligations.StepRunsFetchedOperation : Prop :=
  ∀ (s : State) (p : Nat) (i : Instr), s.mover = some p → decode (s.fetch p) = .instr i →
    step s = exec i (s.turnTo p) ∧ (s.turnTo p).active = p ∧ (s.turnTo p).cfg = s.cfg ∧
      (∀ q, (s.turnTo p).lp q = s.lp q) ∧ s.SameDomains (s.turnTo p) ∧ (s.turnTo p).fresh = s.fresh ∧
      (s.turnTo p).requests = s.requests ∧ (s.turnTo p).inSmm = s.inSmm

/-- 30_encoding.md R61, 92_eei_decisions.md D3: a byte sequence outside the admitted subset is refused, not faulted. -/
def Obligations.StepRefusesOtherBytes : Prop :=
  ∀ (s : State) (p : Nat) (e : DecodeError), s.mover = some p → decode (s.fetch p) = .reject e →
    step s = .refused (.bytesNotAdmitted (s.fetch p))

/-- 20_memory.md R53, 10_state.md R12: someone moves exactly when someone can, and the mover can. Which one is free (log 8). -/
def Obligations.MoverIsAbleToStep : Prop :=
  ∀ s : State,
    (∀ p, s.mover = some p →
      p < s.cfg.lps.length ∧ (s.lp p).fault = none ∧ (s.lp p).pc < (s.lp p).prog.length) ∧
    (s.mover = none ↔ ∀ p, p < s.cfg.lps.length → (s.lp p).fault ≠ none ∨ (s.lp p).prog.length ≤ (s.lp p).pc)

/-- 10_state.md R12, 60_exceptions.md R195: the machine stops only when no one can step; without a recorded fault exactly when the
run is a success, and as stopped by `#GP(0)` otherwise. That a finished run is a `Fault` of the model is its choice (log 28). -/
def Obligations.StopsOnlyWhenNoOneCanStep : Prop :=
  ∀ s : State,
    (step s = .fault .runEnded ↔ s.succeeded) ∧
    (step s = .fault .stoppedByGP0 ↔ s.mover = none ∧ s.someFault)

/-- 10_state.md R12: a step moves one logical processor that can step; either its program counter moves on by one, or it stays and
`#GP(0)` is recorded with that program counter and ECX as the address. Every other logical processor is as it was. -/
def Obligations.StepMovesOneProcessor : Prop :=
  ∀ s t : State, step s = .next t →
    ∃ p, p < s.cfg.lps.length ∧ (s.lp p).fault = none ∧ (s.lp p).pc < (s.lp p).prog.length ∧
      (∀ q, q ≠ p → t.lp q = s.lp q) ∧
      (((t.lp p).pc = (s.lp p).pc + 1 ∧ (t.lp p).fault = none) ∨
       ((t.lp p).pc = (s.lp p).pc ∧
          ∃ v, (t.lp p).fault = some { pc := (s.lp p).pc, address := (s.lp p).ecx, value := v }))

/-- 60_exceptions.md R195: a logical processor with a recorded fault takes no further step, and the record is never cleared. -/
def Obligations.RecordedFaultIsFinal : Prop :=
  ∀ (s t : State) (p : Nat) (g : GPRecord), step s = .next t → (s.lp p).fault = some g → t.lp p = s.lp p

/-! `LOAD` -/

/-- 41_msr_access.md R102: `LOAD r, imm32` and its bytes. -/
def Obligations.LoadResult : Prop :=
  (∀ (s : State) (r : Reg) (v : W32), ∃ t, exec (.load r v) s = .next t ∧ t.me.reg r = v ∧
      (∀ q, q ≠ r → t.me.reg q = s.me.reg q) ∧ t.fresh = s.fresh ∧ s.CompletedInRegs t) ∧
  (∀ (r : Reg) (i0 i1 i2 i3 : Byte),
    decode [BitVec.ofNat 8 (0xB8 + r.number.toNat), i0, i1, i2, i3] = .instr (.load r (i3 ++ i2 ++ i1 ++ i0))) ∧
  Reg.eax.number = 0 ∧ Reg.ecx.number = 1 ∧ Reg.edx.number = 2 ∧ Reg.ebx.number = 3 ∧
  decode [0xB9, 0x8F, 0x0C, 0x00, 0x00] = .instr (.load .ecx 0xC8F)

/-! `CPUID` -/

/-- 40_cpuid_enumeration.md R80: `CPUID` of leaf 07H sub-leaf 0, or of leaf 10H with any sub-leaf, completes at every privilege level
and changes nothing but the four registers, the program counter and the count of free words. -/
def Obligations.CpuidCompletes : Prop :=
  ∀ s : State, (s.me.eax = 0x7 ∧ s.me.ecx = 0) ∨ s.me.eax = 0x10 →
    ∃ t, exec .cpuid s = .next t ∧ t.fresh = s.fresh + 4 ∧ s.CompletedInRegs t

/-- 40_cpuid_enumeration.md R81: EBX[15] is PQE. -/
def Obligations.CpuidLeaf7Result : Prop :=
  ∀ s : State, s.me.eax = 0x7 → s.me.ecx = 0 →
    ∃ t, exec .cpuid s = .next t ∧ t.me.ebx.getLsbD 15 = s.cfg.pqe ∧ s.CompletedInRegs t

/-- 40_cpuid_enumeration.md R82: EBX[3:1] are the supported resources. -/
def Obligations.CpuidResourcesResult : Prop :=
  ∀ s : State, s.me.eax = 0x10 → s.me.ecx = 0 → s.cfg.pqe = true →
    ∃ t, exec .cpuid s = .next t ∧ t.me.ebx.getLsbD 1 = s.cfg.l3.res ∧ t.me.ebx.getLsbD 2 = s.cfg.l2.res ∧
      t.me.ebx.getLsbD 3 = s.cfg.resMba ∧ s.CompletedInRegs t

/-- 40_cpuid_enumeration.md R83 to R87: sub-leaf 1 describes L3 and sub-leaf 2 describes L2. Nothing is said of the reserved bits. -/
def Obligations.CpuidCacheResult : Prop :=
  ∀ (s : State) (X : Level), s.me.eax = 0x10 → s.me.ecx = resId X → s.cfg.pqe = true → (s.cfg.cache X).res = true →
    (s.cfg.cache X).cosMax ≤ 65535 →
    ∃ t, exec .cpuid s = .next t ∧
      (t.me.eax.extractLsb' 0 5).toNat + 1 = (s.cfg.cache X).cbmLen ∧
      (∀ i, i < (s.cfg.cache X).cbmLen → t.me.ebx.getLsbD i = (s.cfg.cache X).share.getLsbD i) ∧
      t.me.ecx.getLsbD 2 = (s.cfg.cache X).cdp ∧
      (t.me.edx.extractLsb' 0 16).toNat = (s.cfg.cache X).cosMax ∧ s.CompletedInRegs t

/-- 40_cpuid_enumeration.md R88, R89. That the maximum-delay field is EAX[11:0] is PRESUMED (log 13), and so is the bound 4096 that
a field of 12 bits in minus-one notation puts on MBA_MAX. -/
def Obligations.CpuidMbaResult : Prop :=
  ∀ s : State, s.me.eax = 0x10 → s.me.ecx = 3 → s.cfg.pqe = true → s.cfg.resMba = true →
    1 ≤ s.cfg.mbaMax → s.cfg.mbaMax ≤ 4096 → s.cfg.mbaCosMax ≤ 65535 →
    ∃ t, exec .cpuid s = .next t ∧
      (t.me.eax.extractLsb' 0 12).toNat + 1 = s.cfg.mbaMax ∧
      t.me.ecx.getLsbD 2 = s.cfg.mbaLinear ∧
      (t.me.edx.extractLsb' 0 16).toNat = s.cfg.mbaCosMax ∧ s.CompletedInRegs t

/-- 40_cpuid_enumeration.md R90: the leaves outside {07H, 10H}, and leaf 07H with another sub-leaf than 0, are refused. -/
def Obligations.CpuidRefusesOtherLeaves : Prop :=
  ∀ s : State, s.me.eax ≠ 0x10 → ¬ (s.me.eax = 0x7 ∧ s.me.ecx = 0) →
    exec .cpuid s = .refused (.cpuidLeafNotDescribed s.me.eax s.me.ecx)

/-- 92_eei_decisions.md D15: leaf 10H without PQE, or with a sub-leaf that is no supported resource, gives four free words. The model's
form of "unconstrained" (log 9); it holds whatever the free words are. -/
def Obligations.CpuidUnsupportedSubleafIsFree : Prop :=
  ∀ s : State, s.me.eax = 0x10 →
    (s.cfg.pqe = false ∨
      (s.me.ecx ≠ 0 ∧ (s.me.ecx ≠ 1 ∨ s.cfg.l3.res = false) ∧ (s.me.ecx ≠ 2 ∨ s.cfg.l2.res = false) ∧
        (s.me.ecx ≠ 3 ∨ s.cfg.resMba = false))) →
    ∃ t, exec .cpuid s = .next t ∧ t.me.eax = Config.cpuidFree s.fresh ∧ t.me.ebx = Config.cpuidFree (s.fresh + 1) ∧
      t.me.ecx = Config.cpuidFree (s.fresh + 2) ∧ t.me.edx = Config.cpuidFree (s.fresh + 3) ∧ s.CompletedInRegs t

/-- 40_cpuid_enumeration.md R80, 10_state.md R24: what `CPUID` returns does not depend on any MSR, on the privilege level, on a cache,
or on the other logical processors; for equal inputs and equal draws of the free words it is the same. That equal counts
draw equal words is the model's (log 9). -/
def Obligations.CpuidIgnoresRegisters : Prop :=
  ∀ s u s' u' : State, s.cfg = u.cfg → s.fresh = u.fresh → s.me.eax = u.me.eax → s.me.ecx = u.me.ecx →
    exec .cpuid s = .next s' → exec .cpuid u = .next u' → ∀ r, s'.me.reg r = u'.me.reg r

/-! `RDMSR` -/

/-- 41_msr_access.md R100: the read of an implemented register at privilege level 0. ECX and EBX and every register of the interface are
as they were (20_memory.md R50). -/
def Obligations.RdmsrResult : Prop :=
  ∀ (s : State) (r : Msr), s.me.cpl = 0 → msrLookup s.cfg s.me.ecx = .implemented r →
    ∃ t, exec .rdmsr s = .next t ∧ t.me.edx ++ t.me.eax = s.msrRead s.active r ∧
      t.me.ecx = s.me.ecx ∧ t.me.ebx = s.me.ebx ∧ t.fresh = s.fresh ∧ s.CompletedInRegs t

/-- 42_cat.md R129: the class programmed, and the low half, of the executing logical processor. -/
def Obligations.RdmsrPqrValue : Prop :=
  ∀ s : State, s.me.cpl = 0 → s.cfg.pqe = true → s.me.ecx = 0xC8F →
    ∃ t, exec .rdmsr s = .next t ∧ t.me.edx = s.me.pqrCos ∧ t.me.eax = s.me.pqrLow ∧
      (s.me.pqrCos = LpState.reset.pqrCos → t.me.edx = 0) ∧ t.me.ecx = s.me.ecx ∧ t.me.ebx = s.me.ebx ∧ s.CompletedInRegs t

/-- 42_cat.md R126: EDX is 0 and EAX the mask held, of the executing processor's own domain, in CAT-only mode and with CDP enabled. -/
def Obligations.RdmsrMaskValue : Prop :=
  ∀ (s : State) (X : Level) (n : Nat), s.cfg.wf = true → s.me.cpl = 0 → (s.cfg.cache X).res = true →
    n ≤ (s.cfg.cache X).cosMax → s.me.ecx = BitVec.ofNat 32 (maskBase X + n) →
    ∃ t, exec .rdmsr s = .next t ∧ t.me.edx = 0 ∧ t.me.eax = s.mask X (s.cfg.dom X s.active) n ∧
      t.me.ecx = s.me.ecx ∧ t.me.ebx = s.me.ebx ∧ s.CompletedInRegs t

/-- 43_cdp.md R151, R152: the read of a QOS_CFG register. -/
def Obligations.RdmsrQosCfgValue : Prop :=
  ∀ (s : State) (X : Level), s.me.cpl = 0 → (s.cfg.cache X).cdp = true → s.me.ecx = qosCfgAddress X →
    ∃ t, exec .rdmsr s = .next t ∧ t.me.edx = 0 ∧
      t.me.eax = (if (s.cache X (s.cfg.dom X s.active)).cdp then 1 else 0) ∧
      t.me.ecx = s.me.ecx ∧ t.me.ebx = s.me.ebx ∧ s.CompletedInRegs t

/-- 44_mba.md R174: EDX is 0 and EAX the class's delay value. For an index of 64 or more, whose address is above 0D8FH, that the
register is there is the model's choice (log 11). -/
def Obligations.RdmsrMbaValue : Prop :=
  ∀ (s : State) (n : Nat), s.cfg.wf = true → s.me.cpl = 0 → s.cfg.resMba = true → n ≤ s.cfg.mbaCosMax →
    s.me.ecx = BitVec.ofNat 32 (0xD50 + n) →
    ∃ t, exec .rdmsr s = .next t ∧ t.me.edx = 0 ∧ t.me.eax = (s.mbaThr (s.cfg.place s.active).mbadom n).setWidth 32 ∧
      t.me.ecx = s.me.ecx ∧ t.me.ebx = s.me.ebx ∧ s.CompletedInRegs t

/-- 41_msr_access.md R103, R104, R106; 60_exceptions.md R191 rows 7 and 8, R195: where `RDMSR` takes `#GP(0)`, and that the record, with
no value in it, is all that changes. -/
def Obligations.RdmsrTakesGP0 : Prop :=
  ∀ s : State, s.cfg.wf = true →
    (s.me.cpl ≠ 0 ∨ (rdtAddress s.me.ecx.toNat ∧ ¬ msrExists s.cfg s.me.ecx.toNat)) →
    ∃ t, exec .rdmsr s = .next t ∧ s.TookGP0 t none

/-! The MSR space -/

/-- 41_msr_access.md R104: an address names an implemented register exactly under the lines of `MsrExists`; any other address of the
interface is absent, and any other address is outside. Where MBA_COS_MAX is 64 or more the last line of `MsrExists` holds of
addresses from 0D90H on, which the rule's last sentence refuses: that they are implemented there is the model's choice (log 11). -/
def Obligations.MsrLookupMatchesMap : Prop :=
  ∀ (c : Cfg) (a : W32), c.wf = true →
    ((∃ r, msrLookup c a = .implemented r) ↔ msrExists c a.toNat) ∧
    (msrLookup c a = .absent ↔ rdtAddress a.toNat ∧ ¬ msrExists c a.toNat) ∧
    (msrLookup c a = .outside ↔ ¬ rdtAddress a.toNat ∧ ¬ msrExists c a.toNat)

/-- 41_msr_access.md R104: at privilege level 0 an access to an address outside the interface is refused. -/
def Obligations.AccessOutsideIsRefused : Prop :=
  ∀ s : State, s.cfg.wf = true → s.me.cpl = 0 → ¬ rdtAddress s.me.ecx.toNat → ¬ msrExists s.cfg s.me.ecx.toNat →
    exec .rdmsr s = .refused (.notAnRdtMsr s.me.ecx) ∧ exec .wrmsr s = .refused (.notAnRdtMsr s.me.ecx)

/-- 43_cdp.md R153: the data mask of class n is mask register 2n and its code mask mask register 2n + 1, at these addresses, for every
class whose pair lies in the block of the resource. -/
def Obligations.MaskAddressesUnderCdp : Prop :=
  (∀ (X : Level) (n : Nat), (X = .l3 → n ≤ 63) → (X = .l2 → n ≤ 31) →
    dataMaskAddress X n = maskBase X + 2 * n ∧ codeMaskAddress X n = maskBase X + 2 * n + 1 ∧
    msrAt (BitVec.ofNat 32 (dataMaskAddress X n)) = some (.mask X (dataMaskIndex n)) ∧
    msrAt (BitVec.ofNat 32 (codeMaskAddress X n)) = some (.mask X (codeMaskIndex n)) ∧
    dataMaskIndex n = 2 * n ∧ codeMaskIndex n = 2 * n + 1) ∧
  maskBase .l3 = 0xC90 ∧ maskBase .l2 = 0xD10 ∧ dataMaskAddress .l3 3 = 0xC96 ∧ codeMaskAddress .l3 3 = 0xC97 ∧
  dataMaskAddress .l2 0 = 0xD10 ∧ codeMaskAddress .l2 0 = 0xD11

/-! `WRMSR` -/

/-- 41_msr_access.md R101, 20_memory.md R42, R45, R49: a valid write at privilege level 0 changes one storage cell, which from then on
every logical processor that sees it reads, and no other register of the interface. -/
def Obligations.WrmsrStoresOneCell : Prop :=
  ∀ (s : State) (r : Msr), s.me.cpl = 0 → msrLookup s.cfg s.me.ecx = .implemented r →
    writeValid s.cfg r (s.me.edx ++ s.me.eax) = true →
    ∃ t, exec .wrmsr s = .next t ∧ s.WroteMsr t ∧
      ∀ (q : Nat) (r' : Msr), t.msrRead q r' =
        if msrResolve s.cfg q r' = msrResolve s.cfg s.active r then writtenValue s.cfg r (s.me.edx ++ s.me.eax)
        else s.msrRead q r'

/-- 41_msr_access.md R103 to R107; 60_exceptions.md R191, R195: where `WRMSR` takes `#GP(0)`, and that the record, with the value of
EDX:EAX in it, is all that changes. -/
def Obligations.WrmsrTakesGP0 : Prop :=
  ∀ s : State, s.cfg.wf = true →
    (s.me.cpl ≠ 0 ∨ (rdtAddress s.me.ecx.toNat ∧ ¬ msrExists s.cfg s.me.ecx.toNat) ∨
      ∃ r, msrLookup s.cfg s.me.ecx = .implemented r ∧ writeValid s.cfg r (s.me.edx ++ s.me.eax) = false) →
    ∃ t, exec .wrmsr s = .next t ∧ s.TookGP0 t (some (s.me.edx ++ s.me.eax))

/-- 42_cat.md R123, R124: a value may be written to a mask register exactly when its 1 bits are one run of length 1 or more inside the mask
length. -/
def Obligations.LegalMaskValues : Prop :=
  ∀ (c : Cfg) (X : Level) (n : Nat) (v : W64),
    writeValid c (.mask X n) v = true ↔
      ∃ lo k, 1 ≤ k ∧ lo + k ≤ (c.cache X).cbmLen ∧ v.toNat = (2 ^ k - 1) * 2 ^ lo

/-- 42_cat.md R121, R122, R125: a `WRMSR` to an implemented mask register stores a legal mask in the executing processor's domain and takes
`#GP(0)` on any other value. -/
def Obligations.MaskWriteResult : Prop :=
  ∀ (s : State) (X : Level) (n : Nat), s.cfg.wf = true → s.me.cpl = 0 → (s.cfg.cache X).res = true →
    n ≤ (s.cfg.cache X).cosMax → s.me.ecx = BitVec.ofNat 32 (maskBase X + n) →
    ((∃ lo k, 1 ≤ k ∧ lo + k ≤ (s.cfg.cache X).cbmLen ∧ (s.me.edx ++ s.me.eax : W64).toNat = (2 ^ k - 1) * 2 ^ lo) →
      ∃ t, exec .wrmsr s = .next t ∧ s.WroteMsr t ∧ t.mask X (s.cfg.dom X s.active) n = s.me.eax ∧
        (∀ Y d m, (Y ≠ X ∨ d ≠ s.cfg.dom X s.active ∨ m ≠ n) → t.mask Y d m = s.mask Y d m) ∧
        (∀ Y d, (t.cache Y d).cdp = (s.cache Y d).cdp) ∧ (∀ d m, t.mbaThr d m = s.mbaThr d m) ∧
        t.me.pqrCos = s.me.pqrCos ∧ t.me.pqrLow = s.me.pqrLow) ∧
    ((¬ ∃ lo k, 1 ≤ k ∧ lo + k ≤ (s.cfg.cache X).cbmLen ∧ (s.me.edx ++ s.me.eax : W64).toNat = (2 ^ k - 1) * 2 ^ lo) →
      ∃ t, exec .wrmsr s = .next t ∧ s.TookGP0 t (some (s.me.edx ++ s.me.eax)))

/-- 42_cat.md R128: a `WRMSR` to IA32_PQR_ASSOC stores the class and the low half of the executing processor alone, or takes `#GP(0)`. -/
def Obligations.PqrWriteResult : Prop :=
  ∀ s : State, s.me.cpl = 0 → s.cfg.pqe = true → s.me.ecx = 0xC8F →
    if s.me.edx.toNat ≤ cosMaxAll s.cfg ∧ pqrLowValid s.cfg s.me.eax = true then
      ∃ t, exec .wrmsr s = .next t ∧ s.WroteMsr t ∧ t.me.pqrCos = s.me.edx ∧ t.me.pqrLow = s.me.eax ∧ s.SameDomains t
    else ∃ t, exec .wrmsr s = .next t ∧ s.TookGP0 t (some (s.me.edx ++ s.me.eax))

/-- 43_cdp.md R151, R152: a `WRMSR` to a QOS_CFG register stores bit 0 for the executing processor's domain, or takes `#GP(0)` when any
other bit is 1. -/
def Obligations.QosCfgWriteResult : Prop :=
  ∀ (s : State) (X : Level), s.me.cpl = 0 → (s.cfg.cache X).cdp = true → s.me.ecx = qosCfgAddress X →
    if s.me.edx = 0 ∧ (s.me.eax = 0 ∨ s.me.eax = 1) then
      ∃ t, exec .wrmsr s = .next t ∧ s.WroteMsr t ∧
        (t.cache X (s.cfg.dom X s.active)).cdp = decide (s.me.eax = 1) ∧
        (∀ Y d, (Y ≠ X ∨ d ≠ s.cfg.dom X s.active) → t.cache Y d = s.cache Y d) ∧
        (∀ Y d m, t.mask Y d m = s.mask Y d m) ∧ (∀ d m, t.mbaThr d m = s.mbaThr d m) ∧
        t.me.pqrCos = s.me.pqrCos ∧ t.me.pqrLow = s.me.pqrLow
    else ∃ t, exec .wrmsr s = .next t ∧ s.TookGP0 t (some (s.me.edx ++ s.me.eax))

/-- 44_mba.md R173, R178: a `WRMSR` to an implemented delay register stores a value from 0 to MBA_MAX, as written or rounded by the read-back
mode, and takes `#GP(0)` on any other value. For an index of 64 or more, whose address is above 0D8FH, that the register is there is
the model's choice (log 11). -/
def Obligations.MbaWriteResult : Prop :=
  ∀ (s : State) (n : Nat), s.cfg.wf = true → s.me.cpl = 0 → s.cfg.resMba = true → n ≤ s.cfg.mbaCosMax →
    s.me.ecx = BitVec.ofNat 32 (0xD50 + n) →
    if s.me.edx = 0 ∧ s.me.eax.toNat < 65536 ∧ s.me.eax.toNat ≤ s.cfg.mbaMax then
      ∃ t, exec .wrmsr s = .next t ∧ s.WroteMsr t ∧
        (t.mbaThr (s.cfg.place s.active).mbadom n).toNat =
          (match s.cfg.readback with
            | .written => s.me.eax.toNat
            | .rounded => mbaApplied s.cfg s.me.eax.toNat) ∧
        (∀ d m, (d ≠ (s.cfg.place s.active).mbadom ∨ m ≠ n) → t.mbaThr d m = s.mbaThr d m) ∧
        (∀ Y d, t.cache Y d = s.cache Y d) ∧ t.me.pqrCos = s.me.pqrCos ∧ t.me.pqrLow = s.me.pqrLow
    else ∃ t, exec .wrmsr s = .next t ∧ s.TookGP0 t (some (s.me.edx ++ s.me.eax))

/-- 00_scope.md R6: COS_MAX_ALL is the largest class number that any supported resource reports. Where none is supported it is a free
value (log 12) and nothing is said. -/
def Obligations.CosMaxAllIsMaximum : Prop :=
  ∀ c : Cfg,
    (∀ X, (c.cache X).res = true → (c.cache X).cosMax ≤ cosMaxAll c) ∧
    (c.resMba = true → c.mbaCosMax ≤ cosMaxAll c) ∧
    (c.l3.res = true ∨ c.l2.res = true ∨ c.resMba = true →
      (∃ X, (c.cache X).res = true ∧ cosMaxAll c = (c.cache X).cosMax) ∨
        (c.resMba = true ∧ cosMaxAll c = c.mbaCosMax))

/-! What the masks mean -/

/-- 43_cdp.md R162: a `WRMSR` to a QOS_CFG register that completes changes no mask register and no IA32_PQR_ASSOC. -/
def Obligations.CdpToggleKeepsRegisters : Prop :=
  ∀ (s t : State) (X : Level), s.me.cpl = 0 → msrLookup s.cfg s.me.ecx = .implemented (.qosCfg X) →
    writeValid s.cfg (.qosCfg X) (s.me.edx ++ s.me.eax) = true → exec .wrmsr s = .next t →
    (∀ Y d n, t.mask Y d n = s.mask Y d n) ∧
      ∀ p, (t.lp p).pqrCos = (s.lp p).pqrCos ∧ (t.lp p).pqrLow = (s.lp p).pqrLow

/-- 42_cat.md R135, R139: in CAT-only mode a class's fills are governed by the mask of its number, for code and data alike, and a class above
the resource's maximum has no effective mask. -/
def Obligations.EffMaskInCatOnlyMode : Prop :=
  ∀ (s : State) (X : Level) (p : Nat) (kind : RequestKind), (s.cfg.cache X).res = true →
    ((s.cfg.cache X).cdp = false ∨ (s.cache X (s.cfg.dom X p)).cdp = false) →
    s.effMask X p kind =
      if (s.lp p).pqrCos.toNat ≤ (s.cfg.cache X).cosMax then
        some (s.mask X (s.cfg.dom X p) (s.lp p).pqrCos.toNat)
      else none

/-- 43_cdp.md R155: with CDP enabled a class's data fills are governed by mask 2c and its code fills by mask 2c + 1, where both exist, and it
has no effective mask otherwise. -/
def Obligations.EffMaskUnderCdp : Prop :=
  ∀ (s : State) (X : Level) (p : Nat), (s.cfg.cache X).res = true → (s.cfg.cache X).cdp = true →
    (s.cache X (s.cfg.dom X p)).cdp = true →
    if 2 * (s.lp p).pqrCos.toNat + 1 ≤ (s.cfg.cache X).cosMax then
      s.effMask X p .data = some (s.mask X (s.cfg.dom X p) (2 * (s.lp p).pqrCos.toNat)) ∧
        s.effMask X p .code = some (s.mask X (s.cfg.dom X p) (2 * (s.lp p).pqrCos.toNat + 1))
    else ∀ kind, s.effMask X p kind = none

/-- 43_cdp.md R157: the classes usable under CDP are those below `(X_COS_MAX + 1) >> 1`. For an even number of classes they are the ones up to
`X_COS_MAX >> 1` (00_scope.md R7), for an odd number one fewer; with 5 classes, 0 and 1. -/
def Obligations.UsableCdpClasses : Prop :=
  (∀ (cc : CacheCfg) (c : Nat) (kind : RequestKind), cc.res = true → cc.cdp = true →
    ((governingMask cc true c kind).isSome = true ↔ c < (cc.cosMax + 1) / 2) ∧
    (cc.cosMax % 2 = 1 → (c < (cc.cosMax + 1) / 2 ↔ c ≤ cosMaxCdp cc)) ∧
    (cc.cosMax % 2 = 0 → (c < (cc.cosMax + 1) / 2 ↔ c < cosMaxCdp cc))) ∧
  (∀ (cc : CacheCfg) (c : Nat) (kind : RequestKind), cc.res = true → cc.cdp = true → cc.cosMax = 4 →
    ((governingMask cc true c kind).isSome = true ↔ c = 0 ∨ c = 1))

/-- 43_cdp.md R161: enabling or disabling CDP on one cache leaves the effective mask of every logical processor on the other cache level as
it was. -/
def Obligations.CdpIsPerCache : Prop :=
  ∀ (s t : State) (X Y : Level) (p : Nat) (kind : RequestKind), X ≠ Y → s.me.cpl = 0 →
    msrLookup s.cfg s.me.ecx = .implemented (.qosCfg X) →
    writeValid s.cfg (.qosCfg X) (s.me.edx ++ s.me.eax) = true → exec .wrmsr s = .next t →
    t.effMask Y p kind = s.effMask Y p kind

/-- 42_cat.md R136, R139, 43_cdp.md R156, R157, 20_memory.md R58, 92_eei_decisions.md D18, D19, D31: the units a request issued in state
`s` may be filled into in a later state `u`, whatever the registers hold then. With no override in force in `u`: those of the mask it
had, or any below the mask length where it had none or its cache was unsettled. Under an override: any below the mask length. The
overrides are D18's three (log 15, log 14, log 35). A fill is possible for the requests under way, and only issuing one adds one.
That a request keeps the mask it was issued under is log 27; what a hazard window does to it is log 34. -/
def Obligations.RequestsFillInsideTheirMask : Prop :=
  (∀ (s u : State) (X : Level) (p : Nat) (kind : RequestKind) (line i : Nat), u.cfg = s.cfg →
    (∀ m, s.effMask X p kind = some m → (s.cache X (s.cfg.dom X p)).hidden.unsettled = [] →
      u.overridden X (s.cfg.dom X p) = false →
      (u.mayFill (s.request p kind line) X i = true ↔ i < (s.cfg.cache X).cbmLen ∧ m.getLsbD i = true)) ∧
    (s.effMask X p kind = none ∨ (s.cache X (s.cfg.dom X p)).hidden.unsettled ≠ [] ∨
        u.overridden X (s.cfg.dom X p) = true →
      (u.mayFill (s.request p kind line) X i = true ↔ i < (s.cfg.cache X).cbmLen))) ∧
  (∀ (u : State) (X : Level) (d : Nat), u.overridden X d = true ↔
    (u.cache X d).hidden.override = true ∨ (u.cache X d).hidden.unsettled ≠ [] ∨ u.inSmm ≠ []) ∧
  (∀ (u : State) (r : Request) (X : Level) (i : Nat) (evicted : List Nat),
    (PlatformEvent.fill r X i evicted).possible u = true ↔
      r ∈ u.requests ∧ u.mayFill r X i = true ∧ u.hits X (u.cfg.dom X r.lp) r.line = false) ∧
  (∀ (e : PlatformEvent) (u : State) (r : Request), r ∈ (e.apply u).requests →
    r ∈ u.requests ∨ ∃ p kind line, e = .issue p kind line ∧ r = u.request p kind line)

/-- 42_cat.md R133: two masks overlap when they share a 1 bit, and the requests of two processors of one cache can be filled into a
common unit exactly when their effective masks overlap. Said of a cache in which no override is in force (92_eei_decisions.md D18:
no power feature, no CDP hazard, no SMM; log 15, log 14, log 35), and of a mask inside the mask length (10_state.md R29). -/
def Obligations.OverlapMeansSharedUnit : Prop :=
  (∀ a b : W32, overlap a b = true ↔ ∃ i, a.getLsbD i = true ∧ b.getLsbD i = true) ∧
  ∀ (s : State) (X : Level) (p q : Nat) (k l : RequestKind) (x y : Nat) (a b : W32),
    s.cfg.dom X p = s.cfg.dom X q → s.effMask X p k = some a → s.effMask X q l = some b →
    a.toNat < 2 ^ (s.cfg.cache X).cbmLen → s.overridden X (s.cfg.dom X p) = false →
    (overlap a b = true ↔ ∃ i, s.mayFill (s.request p k x) X i = true ∧ s.mayFill (s.request q l y) X i = true)

/-- 43_cdp.md R159, R151, 70_reset_and_hazards.md R233, 92_eei_decisions.md D31: a `WRMSR` to a QOS_CFG register that changes the CDP bit
while some mask of the cache is not all 1s leaves placement in that cache unconstrained: no processor of the domain has a mask in
force, and every request of the domain, one issued before too, may be filled into any unit (log 34). A write that leaves the bit as
it was, or changes it while every mask is full, unsettles nothing. Other caches are as they were. That the hazard is held as a list
of indices is the model's (log 14). -/
def Obligations.HazardousToggleUnsettles : Prop :=
  ∀ (s t : State) (X : Level), s.me.cpl = 0 → msrLookup s.cfg s.me.ecx = .implemented (.qosCfg X) →
    writeValid s.cfg (.qosCfg X) (s.me.edx ++ s.me.eax) = true → exec .wrmsr s = .next t →
    (s.me.eax.getLsbD 0 ≠ (s.cache X (s.cfg.dom X s.active)).cdp →
      (∃ n, n ≤ (s.cfg.cache X).cosMax ∧ s.mask X (s.cfg.dom X s.active) n ≠ fullMask (s.cfg.cache X).cbmLen) →
      (∀ p kind, s.cfg.dom X p = s.cfg.dom X s.active → t.maskInForce X p kind = none) ∧
      (∀ r i, s.cfg.dom X r.lp = s.cfg.dom X s.active →
        (t.mayFill r X i = true ↔ i < (s.cfg.cache X).cbmLen))) ∧
    (s.me.eax.getLsbD 0 = (s.cache X (s.cfg.dom X s.active)).cdp ∨
        (∀ n, n ≤ (s.cfg.cache X).cosMax → s.mask X (s.cfg.dom X s.active) n = fullMask (s.cfg.cache X).cbmLen) →
      (t.cache X (s.cfg.dom X s.active)).hidden.unsettled = (s.cache X (s.cfg.dom X s.active)).hidden.unsettled) ∧
    ∀ Y d, (Y ≠ X ∨ d ≠ s.cfg.dom X s.active) → (t.cache Y d).hidden.unsettled = (s.cache Y d).hidden.unsettled

/-- 43_cdp.md R159, 92_eei_decisions.md D31: a valid write of mask n settles index n of its cache and no other, so that a cache is settled again
when every one of its unsettled masks has been written (log 14). -/
def Obligations.MaskWritesSettle : Prop :=
  ∀ (s t : State) (X : Level) (n : Nat), s.me.cpl = 0 → msrLookup s.cfg s.me.ecx = .implemented (.mask X n) →
    writeValid s.cfg (.mask X n) (s.me.edx ++ s.me.eax) = true → exec .wrmsr s = .next t →
    ∀ Y d m, m ∈ (t.cache Y d).hidden.unsettled ↔
      m ∈ (s.cache Y d).hidden.unsettled ∧ ¬ (Y = X ∧ d = s.cfg.dom X s.active ∧ m = n)

/-- 20_memory.md R57, R58, 42_cat.md R138, 60_exceptions.md R207: no operation moves, adds or evicts a cached line, changes a cache's
power state (log 15), or changes a request under way. -/
def Obligations.LinesStay : Prop :=
  ∀ (i : Instr) (s t : State), exec i s = .next t →
    t.requests = s.requests ∧
    ∀ X d, (t.cache X d).hidden.lines = (s.cache X d).hidden.lines ∧
      (t.cache X d).hidden.override = (s.cache X d).hidden.override

/-- 60_exceptions.md R203, R204, R209, R210: requests, fills, power management, SMI delivery, the handler's return and idle states leave
every register of the interface and every logical processor as they were; a write of an SMM handler on `p` changes the one cell that
`WRMSR` of `p` would, and no general register (the last PRESUMED, log 36). That only a write `WRMSR` would accept is such an event, that a
processor with a recorded `#GP(0)` can have one, and that its record then stays, is the MODEL'S CHOICE (log 35). That the QOS_CFG and delay registers survive too is the
spec's decision D34. -/
def Obligations.PlatformEventsKeepRegisters : Prop :=
  (∀ (e : PlatformEvent) (s : State), e ≠ .reset → (∀ p r v, e ≠ .smmWrite p r v) →
    s.SameMsrs (e.apply s) ∧ (e.apply s).cfg = s.cfg ∧ ∀ p, (e.apply s).lp p = s.lp p) ∧
  ∀ (s : State) (p : Nat) (r : Msr) (v : W64), (PlatformEvent.smmWrite p r v).possible s = true →
    p ∈ s.inSmm ∧ msrImplemented s.cfg r = true ∧ writeValid s.cfg r v = true ∧
    ((PlatformEvent.smmWrite p r v).apply s).cfg = s.cfg ∧
    (∀ (q : Nat) (r' : Msr), ((PlatformEvent.smmWrite p r v).apply s).msrRead q r' =
      if msrResolve s.cfg q r' = msrResolve s.cfg p r then writtenValue s.cfg r v else s.msrRead q r') ∧
    ∀ q, (∀ g, (((PlatformEvent.smmWrite p r v).apply s).lp q).reg g = (s.lp q).reg g) ∧
      (((PlatformEvent.smmWrite p r v).apply s).lp q).pc = (s.lp q).pc ∧
      (((PlatformEvent.smmWrite p r v).apply s).lp q).cpl = (s.lp q).cpl ∧
      (((PlatformEvent.smmWrite p r v).apply s).lp q).fault = (s.lp q).fault ∧
      (((PlatformEvent.smmWrite p r v).apply s).lp q).prog = (s.lp q).prog

/-- 70_reset_and_hazards.md R228: after reset every fill may go to any unit of every supported cache. -/
def Obligations.ResetIsUnrestricted : Prop :=
  ∀ (c : Cfg) (X : Level) (p : Nat) (kind : RequestKind) (line : Nat), (c.cache X).res = true →
    (State.resetWith c).effMask X p kind = some (fullMask (c.cache X).cbmLen) ∧
    ∀ i, ((State.resetWith c).mayFill ((State.resetWith c).request p kind line) X i = true ↔ i < (c.cache X).cbmLen)

/-! MBA -/

/-- 44_mba.md R175: in linear mode the applied value is the largest multiple of `P = 100 - MBA_MAX` not above the value, and the value itself
where P is not positive. -/
def Obligations.AppliedInLinearMode : Prop :=
  ∀ (c : Cfg) (v : Nat), c.mbaLinear = true →
    (c.mbaMax < 100 → (100 - c.mbaMax) ∣ mbaApplied c v ∧ mbaApplied c v ≤ v ∧ v < mbaApplied c v + (100 - c.mbaMax)) ∧
    (100 ≤ c.mbaMax → mbaApplied c v = v)

/-- 44_mba.md R176: otherwise the applied value is the largest power of two not above the value, and 0 for 0. -/
def Obligations.AppliedInPowerOfTwoMode : Prop :=
  ∀ (c : Cfg) (v : Nat), c.mbaLinear = false →
    mbaApplied c 0 = 0 ∧ (1 ≤ v → ∃ k, mbaApplied c v = 2 ^ k ∧ 2 ^ k ≤ v ∧ v < 2 ^ (k + 1))

/-- 92_eei_decisions.md D10: rounding is idempotent, so the applied delay does not depend on the read-back mode. -/
def Obligations.AppliedDelayIgnoresReadback : Prop :=
  ∀ (c : Cfg) (v : W16), mbaApplied c (mbaApplied c v.toNat) = mbaApplied c v.toNat ∧
    mbaApplied c (mbaStored c v).toNat = mbaApplied c v.toNat

/-- 44_mba.md R180, R181: the delay of a core is the largest of the delays of its logical processors; a class that MBA does not cover adds
none. -/
def Obligations.CoreDelayIsMaximum : Prop :=
  ∀ (s : State) (k : Nat),
    (∀ p, p < s.cfg.lps.length → (s.cfg.place p).core = k → s.threadDelay p ≤ s.coreDelay k) ∧
    (s.coreDelay k = 0 ∨ ∃ p, p < s.cfg.lps.length ∧ (s.cfg.place p).core = k ∧ s.coreDelay k = s.threadDelay p) ∧
    (∀ p, s.cfg.mbaCosMax < (s.lp p).pqrCos.toNat → s.threadDelay p = 0) ∧
    (∀ p, s.cfg.resMba = true → (s.lp p).pqrCos.toNat ≤ s.cfg.mbaCosMax →
      s.threadDelay p = mbaApplied s.cfg (s.mbaThr (s.cfg.place p).mbadom (s.lp p).pqrCos.toNat).toNat)

/-! Reset and invariants -/

/-- 70_reset_and_hazards.md R220, R221, R224: after reset CDP is off in every cache and every logical processor is in class 0. -/
def Obligations.ResetValuesOfTheSpec : Prop :=
  ∀ c : Cfg,
    (∀ d, ((State.resetWith c).cache .l3 d).cdp = false) ∧
    (∀ d, ((State.resetWith c).cache .l2 d).cdp = false) ∧
    (∀ p, ((State.resetWith c).lp p).pqrCos = 0)

/-- 70_reset_and_hazards.md R222, R223: after reset every mask register is all 1s, as wide as the mask length (the spec's decision D6;
log 22). -/
def Obligations.ResetMasksAreFull : Prop :=
  ∀ (c : Cfg) (X : Level) (d n : Nat), n ≤ (c.cache X).cosMax →
    ((State.resetWith c).mask X d n).toNat = 2 ^ (c.cache X).cbmLen - 1

/-- 70_reset_and_hazards.md R225 to R227: the reset values the spec decides and does not take from its source, and the MODEL'S CHOICE of 0
for the general registers (log 1, log 4, log 5). -/
def Obligations.ResetValuesChosen : Prop :=
  ∀ c : Cfg,
    (∀ p, ((State.resetWith c).lp p).pqrLow = 0 ∧ ((State.resetWith c).lp p).pc = 0 ∧
      ((State.resetWith c).lp p).fault = none ∧ ((State.resetWith c).lp p).cpl = 0 ∧
      ∀ r, ((State.resetWith c).lp p).reg r = 0) ∧
    (∀ d n, (State.resetWith c).mbaThr d n = 0)

/-- 10_state.md R29: the invariants hold after reset, for every configuration. -/
def Obligations.ResetMeetsInvariants : Prop := ∀ c : Cfg, (State.resetWith c).Inv

/-- 10_state.md R29: every step and every event of the platform keeps the invariants. -/
def Obligations.StepKeepsInvariants : Prop :=
  (∀ s t : State, s.Inv → step s = .next t → t.Inv) ∧
  ∀ (e : PlatformEvent) (s : State), s.Inv → e.possible s = true → (e.apply s).Inv

/-- 41_msr_access.md R103, 60_exceptions.md R200: no operation at a privilege level other than 0 changes a register of the interface. -/
def Obligations.UserLevelWritesNoMsr : Prop :=
  ∀ (i : Instr) (s t : State), s.me.cpl ≠ 0 → exec i s = .next t → s.SameMsrs t

/-- 10_state.md R24, 41_msr_access.md R103, 10_state.md R12: no step changes the configuration, a privilege level or a program. -/
def Obligations.StepKeepsConfiguration : Prop :=
  ∀ s t : State, step s = .next t →
    t.cfg = s.cfg ∧ ∀ p, (t.lp p).cpl = (s.lp p).cpl ∧ (t.lp p).prog = (s.lp p).prog

/-- 10_state.md R25 to R27, 92_eei_decisions.md D34: no software observes the requests under way, cache contents, the power state of a
cache or the toggle hazard (held as log 14 says): two states that differ in nothing else, or in which processors are in SMM, take the
same step, up to those. The SMM part is the MODEL'S CHOICE: the steps of a processor in SMM are not held back (log 35), which goes by
D34, whose "only effect is to weaken the fill guarantee". That equal counts draw equal free values is the model's (log 8, log 9). -/
def Obligations.HiddenStateIsNotObserved : Prop :=
  ∀ s u : State, s.eraseHidden = u.eraseHidden → eraseOutcome (step s) = eraseOutcome (step u)

/-- 20_memory.md R42: an operation of one logical processor changes no register copy that it cannot reach itself. -/
def Obligations.OtherDomainsUntouched : Prop :=
  ∀ (i : Instr) (s t : State) (q : Nat) (r : Msr), exec i s = .next t →
    (∀ r', msrResolve s.cfg s.active r' ≠ msrResolve s.cfg q r) → t.msrRead q r = s.msrRead q r
end

