-- ==== Sys2Proof/Laws/State.lean ====
section
/-! SUPPORT. One lemma for each field of the state and each update of it, so that no proof unfolds a record update. -/

namespace Sys2Proof.Machine

@[simp] theorem State.setLp_cfg (s : State) (p : Nat) (x : LpState) : (s.setLp p x).cfg = s.cfg := rfl
@[simp] theorem State.setLp_l3 (s : State) (p : Nat) (x : LpState) : (s.setLp p x).l3 = s.l3 := rfl
@[simp] theorem State.setLp_l2 (s : State) (p : Nat) (x : LpState) : (s.setLp p x).l2 = s.l2 := rfl
@[simp] theorem State.setLp_mba (s : State) (p : Nat) (x : LpState) : (s.setLp p x).mba = s.mba := rfl
@[simp] theorem State.setLp_requests (s : State) (p : Nat) (x : LpState) : (s.setLp p x).requests = s.requests := rfl
@[simp] theorem State.setLp_inSmm (s : State) (p : Nat) (x : LpState) : (s.setLp p x).inSmm = s.inSmm := rfl
@[simp] theorem State.setLp_active (s : State) (p : Nat) (x : LpState) : (s.setLp p x).active = s.active := rfl
@[simp] theorem State.setLp_tick (s : State) (p : Nat) (x : LpState) : (s.setLp p x).tick = s.tick := rfl
@[simp] theorem State.setLp_schedule (s : State) (p : Nat) (x : LpState) : (s.setLp p x).schedule = s.schedule := rfl
@[simp] theorem State.setLp_fresh (s : State) (p : Nat) (x : LpState) : (s.setLp p x).fresh = s.fresh := rfl

@[simp] theorem State.setMe_cfg (s : State) (x : LpState) : (s.setMe x).cfg = s.cfg := rfl
@[simp] theorem State.setMe_l3 (s : State) (x : LpState) : (s.setMe x).l3 = s.l3 := rfl
@[simp] theorem State.setMe_l2 (s : State) (x : LpState) : (s.setMe x).l2 = s.l2 := rfl
@[simp] theorem State.setMe_mba (s : State) (x : LpState) : (s.setMe x).mba = s.mba := rfl
@[simp] theorem State.setMe_requests (s : State) (x : LpState) : (s.setMe x).requests = s.requests := rfl
@[simp] theorem State.setMe_inSmm (s : State) (x : LpState) : (s.setMe x).inSmm = s.inSmm := rfl
@[simp] theorem State.setMe_active (s : State) (x : LpState) : (s.setMe x).active = s.active := rfl
@[simp] theorem State.setMe_tick (s : State) (x : LpState) : (s.setMe x).tick = s.tick := rfl
@[simp] theorem State.setMe_schedule (s : State) (x : LpState) : (s.setMe x).schedule = s.schedule := rfl
@[simp] theorem State.setMe_fresh (s : State) (x : LpState) : (s.setMe x).fresh = s.fresh := rfl

@[simp] theorem State.setCache_cfg (s : State) (X : Level) (d : Nat) (k : CacheState) : (s.setCache X d k).cfg = s.cfg := by
  cases X <;> rfl
@[simp] theorem State.setCache_lps (s : State) (X : Level) (d : Nat) (k : CacheState) : (s.setCache X d k).lps = s.lps := by
  cases X <;> rfl
@[simp] theorem State.setCache_mba (s : State) (X : Level) (d : Nat) (k : CacheState) : (s.setCache X d k).mba = s.mba := by
  cases X <;> rfl
@[simp] theorem State.setCache_requests (s : State) (X : Level) (d : Nat) (k : CacheState) :
    (s.setCache X d k).requests = s.requests := by cases X <;> rfl
@[simp] theorem State.setCache_inSmm (s : State) (X : Level) (d : Nat) (k : CacheState) :
    (s.setCache X d k).inSmm = s.inSmm := by cases X <;> rfl
@[simp] theorem State.setCache_active (s : State) (X : Level) (d : Nat) (k : CacheState) :
    (s.setCache X d k).active = s.active := by cases X <;> rfl
@[simp] theorem State.setCache_tick (s : State) (X : Level) (d : Nat) (k : CacheState) : (s.setCache X d k).tick = s.tick := by
  cases X <;> rfl
@[simp] theorem State.setCache_schedule (s : State) (X : Level) (d : Nat) (k : CacheState) :
    (s.setCache X d k).schedule = s.schedule := by cases X <;> rfl
@[simp] theorem State.setCache_fresh (s : State) (X : Level) (d : Nat) (k : CacheState) :
    (s.setCache X d k).fresh = s.fresh := by cases X <;> rfl

@[simp] theorem State.setMbaThr_cfg (s : State) (d n : Nat) (v : W16) : (s.setMbaThr d n v).cfg = s.cfg := rfl
@[simp] theorem State.setMbaThr_lps (s : State) (d n : Nat) (v : W16) : (s.setMbaThr d n v).lps = s.lps := rfl
@[simp] theorem State.setMbaThr_l3 (s : State) (d n : Nat) (v : W16) : (s.setMbaThr d n v).l3 = s.l3 := rfl
@[simp] theorem State.setMbaThr_l2 (s : State) (d n : Nat) (v : W16) : (s.setMbaThr d n v).l2 = s.l2 := rfl
@[simp] theorem State.setMbaThr_requests (s : State) (d n : Nat) (v : W16) : (s.setMbaThr d n v).requests = s.requests := rfl
@[simp] theorem State.setMbaThr_inSmm (s : State) (d n : Nat) (v : W16) : (s.setMbaThr d n v).inSmm = s.inSmm := rfl
@[simp] theorem State.setMbaThr_active (s : State) (d n : Nat) (v : W16) : (s.setMbaThr d n v).active = s.active := rfl
@[simp] theorem State.setMbaThr_tick (s : State) (d n : Nat) (v : W16) : (s.setMbaThr d n v).tick = s.tick := rfl
@[simp] theorem State.setMbaThr_schedule (s : State) (d n : Nat) (v : W16) : (s.setMbaThr d n v).schedule = s.schedule := rfl
@[simp] theorem State.setMbaThr_fresh (s : State) (d n : Nat) (v : W16) : (s.setMbaThr d n v).fresh = s.fresh := rfl

@[simp] theorem State.turnTo_cfg (s : State) (p : Nat) : (s.turnTo p).cfg = s.cfg := rfl
@[simp] theorem State.turnTo_lps (s : State) (p : Nat) : (s.turnTo p).lps = s.lps := rfl
@[simp] theorem State.turnTo_l3 (s : State) (p : Nat) : (s.turnTo p).l3 = s.l3 := rfl
@[simp] theorem State.turnTo_l2 (s : State) (p : Nat) : (s.turnTo p).l2 = s.l2 := rfl
@[simp] theorem State.turnTo_mba (s : State) (p : Nat) : (s.turnTo p).mba = s.mba := rfl
@[simp] theorem State.turnTo_requests (s : State) (p : Nat) : (s.turnTo p).requests = s.requests := rfl
@[simp] theorem State.turnTo_inSmm (s : State) (p : Nat) : (s.turnTo p).inSmm = s.inSmm := rfl
@[simp] theorem State.turnTo_active (s : State) (p : Nat) : (s.turnTo p).active = p := rfl
@[simp] theorem State.turnTo_tick (s : State) (p : Nat) : (s.turnTo p).tick = s.tick + 1 := rfl
@[simp] theorem State.turnTo_schedule (s : State) (p : Nat) : (s.turnTo p).schedule = s.schedule.tail := rfl
@[simp] theorem State.turnTo_fresh (s : State) (p : Nat) : (s.turnTo p).fresh = s.fresh := rfl

@[simp] theorem LpState.setReg_pc (x : LpState) (r : Reg) (v : W32) : (x.setReg r v).pc = x.pc := by cases r <;> rfl
@[simp] theorem LpState.setReg_cpl (x : LpState) (r : Reg) (v : W32) : (x.setReg r v).cpl = x.cpl := by cases r <;> rfl
@[simp] theorem LpState.setReg_pqrCos (x : LpState) (r : Reg) (v : W32) : (x.setReg r v).pqrCos = x.pqrCos := by
  cases r <;> rfl
@[simp] theorem LpState.setReg_pqrLow (x : LpState) (r : Reg) (v : W32) : (x.setReg r v).pqrLow = x.pqrLow := by
  cases r <;> rfl
@[simp] theorem LpState.setReg_fault (x : LpState) (r : Reg) (v : W32) : (x.setReg r v).fault = x.fault := by
  cases r <;> rfl
@[simp] theorem LpState.setReg_prog (x : LpState) (r : Reg) (v : W32) : (x.setReg r v).prog = x.prog := by cases r <;> rfl

/-- A register reads what was written to it, and the other registers as before. -/
theorem LpState.reg_setReg (x : LpState) (r q : Reg) (v : W32) :
    (x.setReg r v).reg q = if q = r then v else x.reg q := by cases r <;> cases q <;> rfl

@[simp] theorem CacheState.writeMask_cdp (c : CacheCfg) (k : CacheState) (n : Nat) (m : W32) :
    (k.writeMask c n m).cdp = k.cdp := rfl
@[simp] theorem CacheState.writeMask_override (c : CacheCfg) (k : CacheState) (n : Nat) (m : W32) :
    (k.writeMask c n m).hidden.override = k.hidden.override := rfl
@[simp] theorem CacheState.writeMask_lines (c : CacheCfg) (k : CacheState) (n : Nat) (m : W32) :
    (k.writeMask c n m).hidden.lines = k.hidden.lines := rfl
@[simp] theorem CacheState.writeMask_unsettled (c : CacheCfg) (k : CacheState) (n : Nat) (m : W32) :
    (k.writeMask c n m).hidden.unsettled = k.hidden.unsettled.filter (· != n) := rfl

@[simp] theorem CacheState.writeCdp_cdp (c : CacheCfg) (k : CacheState) (b : Bool) : (k.writeCdp c b).cdp = b := by
  unfold CacheState.writeCdp; split <;> rfl
@[simp] theorem CacheState.writeCdp_masks (c : CacheCfg) (k : CacheState) (b : Bool) : (k.writeCdp c b).masks = k.masks := by
  unfold CacheState.writeCdp; split <;> rfl
@[simp] theorem CacheState.writeCdp_override (c : CacheCfg) (k : CacheState) (b : Bool) :
    (k.writeCdp c b).hidden.override = k.hidden.override := by unfold CacheState.writeCdp; split <;> rfl
@[simp] theorem CacheState.writeCdp_lines (c : CacheCfg) (k : CacheState) (b : Bool) :
    (k.writeCdp c b).hidden.lines = k.hidden.lines := by unfold CacheState.writeCdp; split <;> rfl

@[simp] theorem CacheState.eraseHidden_cdp (k : CacheState) : k.eraseHidden.cdp = k.cdp := rfl
@[simp] theorem CacheState.eraseHidden_masks (k : CacheState) : k.eraseHidden.masks = k.masks := rfl
@[simp] theorem State.eraseHidden_cfg (s : State) : s.eraseHidden.cfg = s.cfg := rfl
@[simp] theorem State.eraseHidden_lps (s : State) : s.eraseHidden.lps = s.lps := rfl
@[simp] theorem State.eraseHidden_mba (s : State) : s.eraseHidden.mba = s.mba := rfl
@[simp] theorem State.eraseHidden_requests (s : State) : s.eraseHidden.requests = [] := rfl
@[simp] theorem State.eraseHidden_inSmm (s : State) : s.eraseHidden.inSmm = [] := rfl
@[simp] theorem State.eraseHidden_active (s : State) : s.eraseHidden.active = s.active := rfl
@[simp] theorem State.eraseHidden_tick (s : State) : s.eraseHidden.tick = s.tick := rfl
@[simp] theorem State.eraseHidden_schedule (s : State) : s.eraseHidden.schedule = s.schedule := rfl
@[simp] theorem State.eraseHidden_fresh (s : State) : s.eraseHidden.fresh = s.fresh := rfl

end Sys2Proof.Machine
end

