-- ==== Sys2Proof/Laws/Ops.lean ====
section
/-! SUPPORT. One lemma for each shared operation, saying once what it can do. Proofs cite these and do not unfold the operation. -/

namespace Sys2Proof

theorem CacheCfg.cbmLen_pos (c : CacheCfg) : 1 ≤ c.cbmLen := by simp [CacheCfg.cbmLen]

theorem CacheCfg.cbmLen_le (c : CacheCfg) : c.cbmLen ≤ 32 := by have := c.cbmLenM1.isLt; simp only [CacheCfg.cbmLen]; omega

end Sys2Proof

namespace Sys2Proof.Machine

/-- Reading after a write: the new entry at its index, every other entry as before. -/
theorem getAt_putAt {α : Type} (dflt v : α) (l : List α) (n m : Nat) :
    getAt dflt (putAt dflt l n v) m = if m = n then v else getAt dflt l m := by
  induction l, n, v using putAt.induct generalizing m with
  | case1 v => cases m <;> simp [putAt, getAt]
  | case2 n v ih => cases m with
    | zero => simp [putAt, getAt]
    | succ m => have := ih m; simp only [putAt, getAt, List.getD_cons_succ] at *; rw [this]; simp
  | case3 h t v => cases m <;> simp [putAt, getAt]
  | case4 h t n v ih => cases m with
    | zero => simp [putAt, getAt]
    | succ m => have := ih m; simp only [putAt, getAt, List.getD_cons_succ] at *; rw [this]; simp

/-- An entry inside a list of equal entries. -/
theorem getAt_replicate {α : Type} (dflt v : α) (k n : Nat) :
    getAt dflt (List.replicate k v) n = if n < k then v else dflt := by
  unfold getAt; rw [List.getD_eq_getElem?_getD, List.getElem?_replicate]; split <;> rfl

theorem State.lp_setLp (s : State) (p q : Nat) (x : LpState) :
    (s.setLp p x).lp q = if q = p then x else s.lp q := getAt_putAt _ _ _ _ _

theorem State.lp_setMe (s : State) (q : Nat) (x : LpState) :
    (s.setMe x).lp q = if q = s.active then x else s.lp q := s.lp_setLp _ _ _

@[simp] theorem State.me_setMe (s : State) (x : LpState) : (s.setMe x).me = x := by
  unfold State.me; rw [State.lp_setMe]; simp

@[simp] theorem State.setMe_lp_other (s : State) (q : Nat) (x : LpState) (h : q ≠ s.active) :
    (s.setMe x).lp q = s.lp q := by rw [State.lp_setMe]; simp [h]

@[simp] theorem State.cache_setLp (s : State) (p : Nat) (x : LpState) (X : Level) (d : Nat) :
    (s.setLp p x).cache X d = s.cache X d := by cases X <;> rfl

@[simp] theorem State.cache_setMe (s : State) (x : LpState) (X : Level) (d : Nat) :
    (s.setMe x).cache X d = s.cache X d := s.cache_setLp _ _ _ _

@[simp] theorem State.mask_setMe (s : State) (x : LpState) (X : Level) (d n : Nat) :
    (s.setMe x).mask X d n = s.mask X d n := by simp [State.mask]

@[simp] theorem State.mbaThr_setLp (s : State) (p : Nat) (x : LpState) (d n : Nat) :
    (s.setLp p x).mbaThr d n = s.mbaThr d n := rfl

@[simp] theorem State.mbaThr_setMe (s : State) (x : LpState) (d n : Nat) : (s.setMe x).mbaThr d n = s.mbaThr d n := rfl

theorem State.cache_setCache (s : State) (X Y : Level) (d e : Nat) (k : CacheState) :
    (s.setCache X d k).cache Y e = if Y = X ∧ e = d then k else s.cache Y e := by
  cases X <;> cases Y <;> simp [State.cache, State.setCache, getAt_putAt]

@[simp] theorem State.lp_setCache (s : State) (X : Level) (d q : Nat) (k : CacheState) :
    (s.setCache X d k).lp q = s.lp q := by simp [State.lp]

@[simp] theorem State.mbaThr_setCache (s : State) (X : Level) (d e n : Nat) (k : CacheState) :
    (s.setCache X d k).mbaThr e n = s.mbaThr e n := by simp [State.mbaThr]

/-- A mask register reads what was written to it, and the other registers of its cache as before. -/
theorem CacheState.mask_writeMask (c : CacheCfg) (k : CacheState) (n m : Nat) (v : W32) :
    (k.writeMask c n v).mask c m = if m = n then v else k.mask c m := getAt_putAt _ _ _ _ _

/-- Writing the CDP bit changes no mask register (43_cdp.md R162). -/
@[simp] theorem CacheState.mask_writeCdp (c : CacheCfg) (k : CacheState) (b : Bool) (n : Nat) :
    (k.writeCdp c b).mask c n = k.mask c n := by simp [CacheState.mask]

theorem State.mbaThr_setMbaThr (s : State) (d e n m : Nat) (v : W16) :
    (s.setMbaThr d n v).mbaThr e m = if e = d ∧ m = n then v else s.mbaThr e m := by
  unfold State.mbaThr State.setMbaThr
  simp only [getAt_putAt]
  by_cases he : e = d
  · subst he; by_cases hm : m = n <;> simp [getAt_putAt, hm]
  · simp [he]

@[simp] theorem State.lp_setMbaThr (s : State) (d n q : Nat) (v : W16) : (s.setMbaThr d n v).lp q = s.lp q := rfl

@[simp] theorem State.cache_setMbaThr (s : State) (d n e : Nat) (v : W16) (X : Level) :
    (s.setMbaThr d n v).cache X e = s.cache X e := by cases X <;> rfl

/-- What taking `#GP(0)` does. -/
theorem State.raiseGP0_spec (s : State) (v : Option W64) : ∃ t, s.raiseGP0 v = .next t ∧ s.TookGP0 t v := by
  refine ⟨_, rfl, ?_⟩
  exact
    { record := by simp
      regs := fun r => by cases r <;> simp [LpState.reg]
      pc := by simp
      cpl := by simp
      prog := by simp
      pqrCos := by simp
      pqrLow := by simp
      fresh := rfl
      surroundings := ⟨rfl, rfl, rfl, rfl, rfl, rfl, fun q h => by simp [h]⟩
      domains := ⟨fun X d => by simp, fun d n => by simp⟩ }

/-- What completing an operation does: the program counter moves on and nothing else changes. -/
theorem State.me_advance (s : State) : s.advance.me = { s.me with pc := s.me.pc + 1 } := by simp [State.advance]

@[simp] theorem State.advance_cfg (s : State) : s.advance.cfg = s.cfg := rfl
@[simp] theorem State.advance_l3 (s : State) : s.advance.l3 = s.l3 := rfl
@[simp] theorem State.advance_l2 (s : State) : s.advance.l2 = s.l2 := rfl
@[simp] theorem State.advance_mba (s : State) : s.advance.mba = s.mba := rfl
@[simp] theorem State.advance_requests (s : State) : s.advance.requests = s.requests := rfl
@[simp] theorem State.advance_inSmm (s : State) : s.advance.inSmm = s.inSmm := rfl
@[simp] theorem State.advance_active (s : State) : s.advance.active = s.active := rfl
@[simp] theorem State.advance_tick (s : State) : s.advance.tick = s.tick := rfl
@[simp] theorem State.advance_schedule (s : State) : s.advance.schedule = s.schedule := rfl
@[simp] theorem State.advance_fresh (s : State) : s.advance.fresh = s.fresh := rfl
@[simp] theorem State.cache_advance (s : State) (X : Level) (d : Nat) : s.advance.cache X d = s.cache X d := s.cache_setMe _ _ _
@[simp] theorem State.mbaThr_advance (s : State) (d n : Nat) : s.advance.mbaThr d n = s.mbaThr d n := rfl
theorem State.lp_advance (s : State) (q : Nat) :
    s.advance.lp q = if q = s.active then { s.me with pc := s.me.pc + 1 } else s.lp q := s.lp_setMe _ _

theorem State.setReg_me (s : State) (r : Reg) (v : W32) : (s.setReg r v).me = s.me.setReg r v := by simp [State.setReg]

@[simp] theorem hiWord_append (hi lo : W32) : hiWord (hi ++ lo) = hi := by
  ext i h; simp only [hiWord, BitVec.getElem_extractLsb', BitVec.getLsbD_append]; simp [BitVec.getLsbD_eq_getElem h]

@[simp] theorem loWord_append (hi lo : W32) : loWord (hi ++ lo) = lo := by
  ext i h; simp only [loWord, BitVec.getElem_extractLsb', BitVec.getLsbD_append]; simp [h]

@[simp] theorem append_hiWord_loWord (v : W64) : hiWord v ++ loWord v = v := by
  ext i h
  simp only [hiWord, loWord, BitVec.getElem_append, BitVec.getElem_extractLsb']
  split
  · simp [BitVec.getLsbD_eq_getElem h]
  · have : 32 + (i - 32) = i := by omega
    simp [this, BitVec.getLsbD_eq_getElem h]

/-- What `putMsrResult` leaves in the executing logical processor. -/
theorem State.putMsrResult_me (s : State) (v : W64) :
    (s.putMsrResult v).me = { s.me with edx := hiWord v, eax := loWord v } := by
  simp [State.putMsrResult, State.setReg, LpState.setReg]

/-- `putMsrResult` is one update of the executing logical processor. -/
theorem State.putMsrResult_eq (s : State) (v : W64) :
    (s.putMsrResult v).cfg = s.cfg ∧ (s.putMsrResult v).active = s.active ∧ (s.putMsrResult v).tick = s.tick ∧
      (s.putMsrResult v).schedule = s.schedule ∧ (s.putMsrResult v).fresh = s.fresh ∧
      (∀ X d, (s.putMsrResult v).cache X d = s.cache X d) ∧ (∀ d n, (s.putMsrResult v).mbaThr d n = s.mbaThr d n) ∧
      ∀ q, q ≠ s.active → (s.putMsrResult v).lp q = s.lp q := by
  refine ⟨rfl, rfl, rfl, rfl, rfl, fun X d => ?_, fun d n => rfl, fun q h => ?_⟩
  · simp [State.putMsrResult, State.setReg]
  · simp only [State.putMsrResult, State.setReg]
    rw [State.setMe_lp_other _ _ _ (by simpa using h), State.setMe_lp_other _ _ _ h]

/-- A bit of a mixed word: the known one where it is determined, the free one elsewhere. -/
theorem getLsbD_mixBits (det known free : W32) (i : Nat) :
    (mixBits det known free).getLsbD i = if det.getLsbD i then known.getLsbD i else free.getLsbD i := by
  simp only [mixBits, BitVec.getLsbD_or, BitVec.getLsbD_and, BitVec.getLsbD_not]
  by_cases hi : i < 32
  · cases det.getLsbD i <;> simp [hi]
  · simp [BitVec.getLsbD_of_ge _ i (by omega : 32 ≤ i)]

/-- A determined bit of a mixed word. -/
theorem getLsbD_mixBits_det (det known free : W32) (i : Nat) (h : det.getLsbD i = true) :
    (mixBits det known free).getLsbD i = known.getLsbD i := by rw [getLsbD_mixBits, if_pos h]

/-- A low field of a mixed word all of whose bits are determined. -/
theorem toNat_extractLsb'_mixBits (det known free : W32) (n : Nat) (hd : ∀ i, i < n → det.getLsbD i = true)
    (hk : known.toNat < 2 ^ n) : ((mixBits det known free).extractLsb' 0 n).toNat = known.toNat := by
  have h : (mixBits det known free).extractLsb' 0 n = known.extractLsb' 0 n := by
    apply BitVec.eq_of_getLsbD_eq
    intro i hi
    simp [hi, getLsbD_mixBits, hd i hi]
  rw [h]; simp [BitVec.extractLsb'_toNat]; exact Nat.mod_eq_of_lt hk

/-- The determined bits of a mixed word do not depend on the free word. -/
theorem mixBits_and (det known free : W32) : mixBits det known free &&& det = known &&& det := by
  apply BitVec.eq_of_getLsbD_eq
  intro i _
  rw [BitVec.getLsbD_and, BitVec.getLsbD_and, getLsbD_mixBits]
  cases det.getLsbD i <;> simp

/-- A bit of a full mask. -/
theorem getLsbD_fullMask (len i : Nat) (h : len ≤ 32) : (fullMask len).getLsbD i = decide (i < len) := by
  simp only [fullMask, BitVec.getLsbD_ofNat, Nat.testBit_two_pow_sub_one]
  by_cases hi : i < len <;> simp [hi]; omega

theorem fullMask_toNat (len : Nat) (h : len ≤ 32) : (fullMask len).toNat = 2 ^ len - 1 := by
  have : 2 ^ len ≤ 2 ^ 32 := Nat.pow_le_pow_right (by norm_num) h
  have hp : 0 < 2 ^ len := by positivity
  simp only [fullMask, BitVec.toNat_ofNat]; rw [Nat.mod_eq_of_lt]; omega

/-- The low bits of a value. -/
theorem lowBits_toNat (len : Nat) (v : W64) (h : len ≤ 32) : (lowBits len v).toNat = v.toNat % 2 ^ len := by
  have : 2 ^ len ≤ 2 ^ 32 := Nat.pow_le_pow_right (by norm_num) h
  have hp : 0 < 2 ^ len := by positivity
  have := Nat.mod_lt v.toNat hp
  simp only [lowBits, BitVec.toNat_ofNat]; rw [Nat.mod_eq_of_lt]; omega

/-- A value without reserved bits loses nothing in its low bits. -/
theorem lowBits_setWidth (len : Nat) (v : W64) (h : len ≤ 32) (hv : v >>> len = 0) :
    (lowBits len v).setWidth 64 = v := by
  have h1 : v.toNat / 2 ^ len = 0 := by
    have := congrArg BitVec.toNat hv; simpa [Nat.shiftRight_eq_div_pow] using this
  have hp : 0 < 2 ^ len := by positivity
  have h2 : v.toNat < 2 ^ len := by
    rcases (Nat.div_eq_zero_iff).1 h1 with h | h <;> omega
  apply BitVec.eq_of_toNat_eq
  have : (lowBits len v).toNat < 2 ^ 32 := (lowBits len v).isLt
  rw [BitVec.toNat_setWidth, Nat.mod_eq_of_lt (by omega), lowBits_toNat _ _ h, Nat.mod_eq_of_lt h2]

/-- The unbroken runs are the numbers `2^k - 1` shifted left, with k at least 1 (00_scope.md section 6). -/
theorem contig_iff (v : Nat) : contig v = true ↔ ∃ lo k, 1 ≤ k ∧ v = (2 ^ k - 1) * 2 ^ lo := by
  have odd (m a : Nat) (hm : m % 2 = 1) : (m <<< a ||| (m <<< a - 1)) + 1 = (m + 1) <<< a := by
    have hp : 0 < 2 ^ a := by positivity
    obtain ⟨w, rfl⟩ : ∃ w, m = 2 * w + 1 := ⟨m / 2, by omega⟩
    have e1 : (2 * w + 1) <<< a - 1 = 2 ^ a * (2 * w) + (2 ^ a - 1) := by
      rw [Nat.shiftLeft_eq]; have : (2 * w + 1) * 2 ^ a = 2 ^ a * (2 * w) + 2 ^ a := by ring
      omega
    have e2 : (2 * w + 1) ||| (2 * w) = 2 * w + 1 := by
      apply Nat.eq_of_testBit_eq; intro i
      have h1 : (2 * w + 1) / 2 = w := by omega
      rw [Nat.testBit_or]; cases i <;> simp [Nat.testBit_succ, h1]
    rw [e1, Nat.two_pow_add_eq_or_of_lt (by omega), mul_comm (2 ^ a) (2 * w), ← Nat.shiftLeft_eq, ← Nat.or_assoc,
      ← Nat.shiftLeft_or_distrib, e2, Nat.shiftLeft_eq, mul_comm, ← Nat.two_pow_add_eq_or_of_lt (by omega), Nat.shiftLeft_eq]
    have : (2 * w + 1 + 1) * 2 ^ a = 2 ^ a * (2 * w + 1) + 2 ^ a := by ring
    omega
  constructor
  · intro h
    simp only [contig, Bool.and_eq_true, bne_iff_ne, ne_eq, beq_iff_eq] at h
    obtain ⟨a, m, hm, rfl⟩ := Nat.exists_eq_two_pow_mul_odd h.1
    have hm' : m % 2 = 1 := Nat.odd_iff.1 hm
    have h2 := h.2
    rw [mul_comm, ← Nat.shiftLeft_eq, odd m a hm', ← Nat.shiftLeft_and_distrib] at h2
    have h3 : (m + 1) &&& m = 0 := by
      rw [Nat.shiftLeft_eq] at h2; exact (Nat.mul_eq_zero.1 h2).resolve_right (by positivity)
    obtain ⟨k, hk⟩ := (Nat.and_sub_one_eq_zero_iff_isPowerOfTwo (by omega : m + 1 ≠ 0)).1 h3
    refine ⟨a, k, ?_, by rw [← hk]; simp [mul_comm]⟩
    rcases Nat.eq_zero_or_pos k with rfl | hk'
    · simp at hk; omega
    · exact hk'
  · rintro ⟨lo, k, hk, rfl⟩
    have hp : 2 ≤ 2 ^ k := by calc 2 = 2 ^ 1 := rfl
      _ ≤ 2 ^ k := Nat.pow_le_pow_right (by norm_num) hk
    have hm : (2 ^ k - 1) % 2 = 1 := by
      obtain ⟨j, rfl⟩ : ∃ j, k = j + 1 := ⟨k - 1, by omega⟩
      rw [pow_succ] at *; omega
    have hlo : 0 < 2 ^ lo := by positivity
    simp only [contig, Bool.and_eq_true, bne_iff_ne, ne_eq, beq_iff_eq]
    refine ⟨(Nat.mul_pos (by omega) hlo).ne', ?_⟩
    rw [← Nat.shiftLeft_eq, odd _ _ hm, ← Nat.shiftLeft_and_distrib]
    have := (Nat.and_sub_one_eq_zero_iff_isPowerOfTwo (by omega : 2 ^ k - 1 + 1 ≠ 0)).2 ⟨k, by omega⟩
    simp only [Nat.add_sub_cancel] at this
    rw [this]; simp

/-- No reserved bit at or above `len` is 1: the value is below `2^len`. -/
theorem shiftRight_eq_zero_iff (v : W64) (len : Nat) : v >>> len = 0 ↔ v.toNat < 2 ^ len := by
  rw [← BitVec.toNat_inj]
  simp only [BitVec.toNat_ushiftRight, Nat.shiftRight_eq_div_pow]
  exact (Nat.div_eq_zero_iff_lt (by positivity))

/-- Rounding a delay never raises it (44_mba.md R175, R176). -/
theorem mbaApplied_le (c : Cfg) (v : Nat) : mbaApplied c v ≤ v := by
  unfold mbaApplied floorPow2
  split
  · split <;> omega
  · split
    · omega
    · exact Nat.log2_self_le ‹_›

end Sys2Proof.Machine
end

