-- ==== Sys2Proof/Laws/Msr.lean ====
section
/-! SUPPORT. What the MSR storage and the look-up of an address do. -/

namespace Sys2Proof.Machine

/-- The value a cell reads after a valid write of `v`: `v`, but for a rounded MBA delay (44_mba.md R178). -/
def cellAfter (c : Cfg) (v : W64) : MsrCell → W64
  | .mbaThrottle _ _ => (mbaStored c (v.setWidth 16)).setWidth 64
  | _ => v

@[simp] theorem State.readCell_setMe_pc (s : State) (n : Nat) (y : MsrCell) :
    (s.setMe { s.me with pc := n }).readCell y = s.readCell y := by
  cases y with
  | pqrAssoc p => by_cases h : p = s.active <;> simp [State.readCell, State.lp_setMe, h, State.me]
  | qosCfg X d => simp [State.readCell]
  | mask X d n => simp [State.readCell]
  | mbaThrottle d n => simp [State.readCell]

/-- Moving the program counter on changes no register. -/
@[simp] theorem State.readCell_advance (s : State) (y : MsrCell) : s.advance.readCell y = s.readCell y :=
  s.readCell_setMe_pc _ _

theorem writeValid_setWidth_mbaThrottle (c : Cfg) (n : Nat) (v : W64) (h : writeValid c (.mbaThrottle n) v = true) :
    (v.setWidth 16).setWidth 64 = v := by
  simp only [writeValid, Bool.and_eq_true, beq_iff_eq] at h
  have h1 : v.toNat / 2 ^ 16 = 0 := by
    have := congrArg BitVec.toNat h.1; simpa [Nat.shiftRight_eq_div_pow] using this
  apply BitVec.eq_of_toNat_eq
  simp only [BitVec.toNat_setWidth]; omega

theorem bit0_of_shiftRight_one (v : W64) (h : v >>> 1 = 0) : (if v.getLsbD 0 then (1 : W64) else 0) = v := by
  have h1 : v.toNat / 2 = 0 := by
    have := congrArg BitVec.toNat h; simpa [Nat.shiftRight_eq_div_pow] using this
  have h2 : v.toNat = 0 ∨ v.toNat = 1 := by omega
  rcases h2 with h2 | h2
  · have : v = 0 := BitVec.eq_of_toNat_eq (by simpa using h2)
    subst this; rfl
  · have : v = 1 := BitVec.eq_of_toNat_eq (by simpa using h2)
    subst this; rfl

theorem State.mask_setCache (s : State) (X Y : Level) (d e n : Nat) (k : CacheState) :
    (s.setCache X d k).mask Y e n = if Y = X ∧ e = d then k.mask (s.cfg.cache X) n else s.mask Y e n := by
  unfold State.mask; rw [State.cache_setCache, State.setCache_cfg]
  by_cases h : Y = X ∧ e = d
  · rw [if_pos h, if_pos h, h.1]
  · rw [if_neg h, if_neg h]

/-- The storage law: after a valid write of `v` to register `r` as `p` sees it, that cell reads the written value and every other
cell as before (20_memory.md R42, R45, R49). -/
theorem State.readCell_msrWrite (s : State) (p : Nat) (r : Msr) (v : W64) (hv : writeValid s.cfg r v = true) (y : MsrCell) :
    (s.msrWrite p r v).readCell y = if y = msrResolve s.cfg p r then cellAfter s.cfg v y else s.readCell y := by
  cases r with
  | pqrAssoc =>
    cases y with
    | pqrAssoc q =>
      by_cases h : q = p <;> simp [State.msrWrite, msrResolve, State.writeCell, State.readCell, State.lp_setLp, h, cellAfter]
    | qosCfg X d => simp [State.msrWrite, msrResolve, State.writeCell, State.readCell]
    | mask X d n => simp [State.msrWrite, msrResolve, State.writeCell, State.readCell, State.mask]
    | mbaThrottle d n => simp [State.msrWrite, msrResolve, State.writeCell, State.readCell]
  | qosCfg X =>
    simp only [writeValid, beq_iff_eq] at hv
    cases y with
    | pqrAssoc q => simp [State.msrWrite, msrResolve, State.writeCell, State.readCell]
    | qosCfg Y e =>
      by_cases h : Y = X ∧ e = s.cfg.dom X p
      · obtain ⟨rfl, rfl⟩ := h
        simp only [State.msrWrite, msrResolve, State.writeCell, State.readCell, State.cache_setCache, cellAfter]
        simpa using bit0_of_shiftRight_one v hv
      · have h' : ¬ (MsrCell.qosCfg Y e = MsrCell.qosCfg X (s.cfg.dom X p)) := by simpa using h
        simp [State.msrWrite, msrResolve, State.writeCell, State.readCell, State.cache_setCache, h]
    | mask Y e n =>
      simp only [State.msrWrite, msrResolve, State.writeCell, State.readCell, State.mask_setCache, CacheState.mask_writeCdp]
      by_cases h : Y = X ∧ e = s.cfg.dom X p
      · obtain ⟨rfl, rfl⟩ := h; simp [State.mask]
      · simp [h]
    | mbaThrottle d n => simp [State.msrWrite, msrResolve, State.writeCell, State.readCell]
  | mask X m =>
    simp only [writeValid, Bool.and_eq_true, beq_iff_eq] at hv
    cases y with
    | pqrAssoc q => simp [State.msrWrite, msrResolve, State.writeCell, State.readCell]
    | qosCfg Y e =>
      simp only [State.msrWrite, msrResolve, State.writeCell, State.readCell, State.cache_setCache]
      by_cases h : Y = X ∧ e = s.cfg.dom X p
      · obtain ⟨rfl, rfl⟩ := h; simp
      · simp [h]
    | mask Y e n =>
      simp only [State.msrWrite, msrResolve, State.writeCell, State.readCell, State.mask_setCache, CacheState.mask_writeMask]
      by_cases h : Y = X ∧ e = s.cfg.dom X p
      · obtain ⟨rfl, rfl⟩ := h
        by_cases hn : n = m
        · subst hn; simp [cellAfter, lowBits_setWidth _ v (CacheCfg.cbmLen_le _) hv.1]
        · simp [hn, State.mask]
      · have h' : ¬ (Y = X ∧ e = s.cfg.dom X p ∧ n = m) := fun k => h ⟨k.1, k.2.1⟩
        simp [h, h']
    | mbaThrottle d n => simp [State.msrWrite, msrResolve, State.writeCell, State.readCell]
  | mbaThrottle m =>
    cases y with
    | pqrAssoc q => simp [State.msrWrite, msrResolve, State.writeCell, State.readCell]
    | qosCfg Y e => simp [State.msrWrite, msrResolve, State.writeCell, State.readCell]
    | mask Y e n => simp [State.msrWrite, msrResolve, State.writeCell, State.readCell, State.mask]
    | mbaThrottle d n =>
      by_cases h : d = mbaDom s.cfg p ∧ n = m
      · obtain ⟨rfl, rfl⟩ := h
        simp [State.msrWrite, msrResolve, State.writeCell, State.readCell, State.mbaThr_setMbaThr, cellAfter]
      · have h' : ¬ (MsrCell.mbaThrottle d n = MsrCell.mbaThrottle (mbaDom s.cfg p) m) := by simpa using h
        simp [State.msrWrite, msrResolve, State.writeCell, State.readCell, State.mbaThr_setMbaThr, h]

/-- The storage law for the mask registers alone (42_cat.md R121). -/
theorem State.mask_msrWrite_mask (s : State) (p : Nat) (X : Level) (n : Nat) (v : W64)
    (hv : writeValid s.cfg (.mask X n) v = true) (Y : Level) (d m : Nat) :
    (s.msrWrite p (.mask X n) v).mask Y d m =
      if Y = X ∧ d = s.cfg.dom X p ∧ m = n then loWord v else s.mask Y d m := by
  simp only [State.msrWrite, msrResolve, State.writeCell, State.mask_setCache, CacheState.mask_writeMask]
  have hl : lowBits (s.cfg.cache X).cbmLen v = loWord v := by
    simp only [writeValid, Bool.and_eq_true, beq_iff_eq, shiftRight_eq_zero_iff] at hv
    have h1 := (s.cfg.cache X).cbmLen_le
    have h2 : 2 ^ (s.cfg.cache X).cbmLen ≤ 2 ^ 32 := Nat.pow_le_pow_right (by norm_num) h1
    apply BitVec.eq_of_toNat_eq
    rw [lowBits_toNat _ _ h1, Nat.mod_eq_of_lt hv.1]; simp [loWord, BitVec.extractLsb'_toNat]; omega
  by_cases h : Y = X ∧ d = s.cfg.dom X p
  · obtain ⟨rfl, rfl⟩ := h; by_cases hm : m = n <;> simp [hm, hl, State.mask]
  · have h' : ¬ (Y = X ∧ d = s.cfg.dom X p ∧ m = n) := fun k => h ⟨k.1, k.2.1⟩
    simp [h, h']

/-- A write to a register changes neither the configuration nor the turn nor the requests under way nor any logical processor's registers, program counter,
privilege level, program or fault record. -/
theorem State.msrWrite_frame (s : State) (p : Nat) (r : Msr) (v : W64) :
    (s.msrWrite p r v).cfg = s.cfg ∧ (s.msrWrite p r v).active = s.active ∧ (s.msrWrite p r v).tick = s.tick ∧
      (s.msrWrite p r v).schedule = s.schedule ∧ (s.msrWrite p r v).requests = s.requests ∧
      (s.msrWrite p r v).inSmm = s.inSmm ∧ (s.msrWrite p r v).fresh = s.fresh ∧
      ((s.msrWrite p r v).lp p).eax = (s.lp p).eax ∧ ((s.msrWrite p r v).lp p).ebx = (s.lp p).ebx ∧
      ((s.msrWrite p r v).lp p).ecx = (s.lp p).ecx ∧ ((s.msrWrite p r v).lp p).edx = (s.lp p).edx ∧
      ((s.msrWrite p r v).lp p).pc = (s.lp p).pc ∧ ((s.msrWrite p r v).lp p).cpl = (s.lp p).cpl ∧
      ((s.msrWrite p r v).lp p).fault = (s.lp p).fault ∧ ((s.msrWrite p r v).lp p).prog = (s.lp p).prog ∧
      ∀ q, q ≠ p → (s.msrWrite p r v).lp q = s.lp q := by
  cases r with
  | pqrAssoc =>
    simp [State.msrWrite, msrResolve, State.writeCell, State.lp_setLp]
    intro q h; simp [h]
  | qosCfg X => simp [State.msrWrite, msrResolve, State.writeCell]
  | mask X n => simp [State.msrWrite, msrResolve, State.writeCell]
  | mbaThrottle n => simp [State.msrWrite, msrResolve, State.writeCell]

/-- What looking an address up answers. -/
theorem msrLookup_cases (c : Cfg) (a : W32) :
    (∃ r, msrLookup c a = .implemented r ∧ msrAt a = some r ∧ msrImplemented c r = true) ∨
      (msrLookup c a = .absent ∧ isRdtAddress a = true) ∨ msrLookup c a = .outside := by
  unfold msrLookup
  cases h : msrAt a with
  | none => simp
  | some r =>
    by_cases h1 : msrImplemented c r = true
    · simp [h1]
    · by_cases h2 : isRdtAddress a = true <;> simp [h1, h2]

end Sys2Proof.Machine
end

