-- ==== Sys2Proof/Laws/Step.lean ====
section
/-! SUPPORT. Who moves, what one operation can do, and what one step can do, each said once. -/

namespace Sys2Proof.Machine

/-- When a logical processor can take a step. -/
theorem State.canStep_iff (s : State) (p : Nat) : s.canStep p = true ↔
    p < s.cfg.lps.length ∧ (s.lp p).fault = none ∧ (s.lp p).pc < (s.lp p).prog.length := by
  simp [State.canStep, and_assoc]

/-- The runnable processors are those that can step. -/
theorem State.mem_runnable (s : State) (p : Nat) : p ∈ s.runnable ↔ s.canStep p = true := by
  simp only [State.runnable, List.mem_filter, List.mem_range]
  constructor
  · exact fun h => h.2
  · intro h; refine ⟨?_, h⟩; simp [State.canStep] at h; exact h.1.1

/-- The free interleaving picks one of those offered. -/
theorem State.freeMover_mem (s : State) (ps : List Nat) (h : ps ≠ []) : s.freeMover ps ∈ ps := by
  unfold State.freeMover
  have : Config.nextMover s.tick % ps.length < ps.length := Nat.mod_lt _ (List.length_pos_iff.2 h)
  rw [List.getD_eq_getElem _ _ this]; exact List.getElem_mem _

/-- The mover can step. -/
theorem State.mover_some (s : State) (p : Nat) (h : s.mover = some p) : s.canStep p = true := by
  unfold State.mover at h
  split at h
  · cases h
  · rename_i q hq; cases h; rw [← State.mem_runnable, hq]; simp
  · rename_i ps h1 h2
    have hf : s.canStep (s.freeMover s.runnable) = true := by
      rw [← State.mem_runnable]; exact State.freeMover_mem _ _ (by intro h; exact h1 h)
    split at h
    · split at h
      · rename_i hh; cases h; exact hh
      · cases h; exact hf
    · cases h; exact hf

/-- The executing processor of a state that has the same turn. -/
theorem State.me_of_active {s t : State} (h : t.active = s.active) : t.me = t.lp s.active := by unfold State.me; rw [h]

theorem State.privileged_iff (s : State) : s.privileged = true ↔ s.me.cpl = 0 := by simp [State.privileged]

/-- An operation that leaves everything but the general registers of the executing processor, and then completes. -/
theorem State.completedInRegs_of {s u : State} (hs : s.me.SameStanding u.me) (hp : u.me.pc = s.me.pc)
    (hu : s.SameSurroundings u) (hd : s.SameDomains u) : s.CompletedInRegs u.advance := by
  refine ⟨?_, ⟨?_, ?_, ?_, ?_, ?_⟩, ⟨hu.cfg, hu.active, hu.tick, hu.schedule, hu.requests, hu.inSmm, fun q hq => ?_⟩,
    ⟨fun X d => ?_, hd.delays⟩⟩
  · rw [State.me_advance, hp]
  · rw [State.me_advance]; exact hs.cpl
  · rw [State.me_advance]; exact hs.pqrCos
  · rw [State.me_advance]; exact hs.pqrLow
  · rw [State.me_advance]; exact hs.fault
  · rw [State.me_advance]; exact hs.prog
  · rw [State.lp_advance, hu.active, if_neg hq]; exact hu.others q hq
  · rw [State.cache_advance]; exact hd.caches X d

/-- What writing the four outputs of `CPUID` leaves in the executing processor. -/
theorem State.putCpuid_me (s : State) (o : CpuidOutput) :
    (s.putCpuid o).me = { s.me with
      eax := o.eax.fill (Config.cpuidFree s.fresh)
      ebx := o.ebx.fill (Config.cpuidFree (s.fresh + 1))
      ecx := o.ecx.fill (Config.cpuidFree (s.fresh + 2))
      edx := o.edx.fill (Config.cpuidFree (s.fresh + 3)) } := by
  simp [State.putCpuid, State.me, State.lp, State.setMe, State.setLp, getAt_putAt]

theorem State.setReg_completed (s : State) (r : Reg) (v : W32) : s.CompletedInRegs (s.setReg r v).advance := by
  apply State.completedInRegs_of
  · constructor <;> simp [State.setReg_me]
  · simp [State.setReg_me]
  · exact ⟨rfl, rfl, rfl, rfl, rfl, rfl, fun q hq => by simp [State.setReg, hq]⟩
  · exact ⟨fun X d => by simp [State.setReg], fun d n => rfl⟩

theorem State.putCpuid_completed (s : State) (o : CpuidOutput) : s.CompletedInRegs (s.putCpuid o).advance := by
  apply State.completedInRegs_of
  · constructor <;> rw [State.putCpuid_me]
  · rw [State.putCpuid_me]
  · refine ⟨rfl, rfl, rfl, rfl, rfl, rfl, fun q hq => ?_⟩
    simp [State.putCpuid, State.lp, State.setMe, State.setLp, getAt_putAt, hq]
  · exact ⟨fun X d => by cases X <;> rfl, fun d n => rfl⟩

theorem State.putMsrResult_completed (s : State) (v : W64) : s.CompletedInRegs (s.putMsrResult v).advance := by
  obtain ⟨_, _, _, _, _, h6, _, h8⟩ := s.putMsrResult_eq v
  apply State.completedInRegs_of
  · constructor <;> rw [State.putMsrResult_me]
  · rw [State.putMsrResult_me]
  · exact ⟨rfl, rfl, rfl, rfl, rfl, rfl, h8⟩
  · exact ⟨h6, fun d n => rfl⟩

theorem State.msrWrite_completed (s : State) (r : Msr) (v : W64) : s.WroteMsr (s.msrWrite s.active r v).advance := by
  obtain ⟨h1, h2, h3, h4, hr, hi, h5, h6, h7, h8, h9, h10, h11, h12, h13, h14⟩ := s.msrWrite_frame s.active r v
  have hme : (s.msrWrite s.active r v).me = (s.msrWrite s.active r v).lp s.active := State.me_of_active h2
  refine ⟨fun q => ?_, ?_, ?_, ?_, ?_, h5, h1, h2, h3, h4, hr, hi, fun q hq => ?_⟩
  · rw [State.me_advance, hme]; cases q <;> simp [LpState.reg, h6, h7, h8, h9, State.me]
  · rw [State.me_advance, hme]; simp [h10, State.me]
  · rw [State.me_advance, hme]; simp [h11, State.me]
  · rw [State.me_advance, hme]; simp [h13, State.me]
  · rw [State.me_advance, hme]; simp [h12, State.me]
  · rw [State.lp_advance, h2, if_neg hq, h14 q hq]

/-- What an operation that gives a next state has done: it wrote general registers, or it is a `WRMSR` of a valid value to an
implemented register at privilege level 0, or it took `#GP(0)`. -/
theorem exec_next_cases (i : Instr) (s t : State) (h : exec i s = .next t) :
    s.CompletedInRegs t ∨
      (s.WroteMsr t ∧ i = .wrmsr ∧ s.me.cpl = 0 ∧ ∃ r, msrLookup s.cfg s.me.ecx = .implemented r ∧
        writeValid s.cfg r s.msrOperand = true ∧ t = (s.msrWrite s.active r s.msrOperand).advance) ∨
      ∃ v, s.TookGP0 t v := by
  have gp : ∀ v, s.raiseGP0 v = .next t → ∃ v, s.TookGP0 t v := by
    intro v hv
    obtain ⟨u, hu, h2⟩ := s.raiseGP0_spec v
    rw [hv] at hu; cases hu; exact ⟨v, h2⟩
  cases i with
  | load r imm => simp only [exec, execLoad] at h; cases h; exact Or.inl (s.setReg_completed r imm)
  | cpuid =>
    simp only [exec, execCpuid] at h
    split at h
    · cases h; exact Or.inl (s.putCpuid_completed _)
    · cases h
  | rdmsr =>
    simp only [exec, execRdmsr] at h
    split at h
    · split at h
      · cases h; exact Or.inl (s.putMsrResult_completed _)
      · exact Or.inr (Or.inr (gp _ h))
      · cases h
    · exact Or.inr (Or.inr (gp _ h))
  | wrmsr =>
    simp only [exec, execWrmsr] at h
    split at h
    · rename_i hp
      split at h
      · split at h
        · rename_i r hr hv
          cases h
          exact Or.inr (Or.inl ⟨s.msrWrite_completed r _, rfl, s.privileged_iff.1 hp, r, hr, hv, rfl⟩)
        · exact Or.inr (Or.inr (gp _ h))
      · exact Or.inr (Or.inr (gp _ h))
      · cases h
    · exact Or.inr (Or.inr (gp _ h))

/-- No operation faults: `Fault` is `step`'s alone. -/
theorem exec_no_fault (i : Instr) (s : State) (r : Fault) : exec i s ≠ .fault r := by
  cases i with
  | cpuid => simp only [exec, execCpuid]; split <;> simp
  | rdmsr => simp only [exec, execRdmsr, State.raiseGP0]; repeat' split
             all_goals simp
  | wrmsr => simp only [exec, execWrmsr, State.raiseGP0]; repeat' split
             all_goals simp
  | load r imm => simp [exec, execLoad]

/-- A step is an operation of a logical processor that can step. -/
theorem step_next_cases (s t : State) (h : step s = .next t) :
    ∃ p i, s.canStep p = true ∧ exec i (s.turnTo p) = .next t := by
  unfold step at h
  split at h
  · rename_i p hp
    unfold State.stepOf at h
    split at h
    · exact ⟨p, _, s.mover_some p hp, h⟩
    · cases h
  · cases h

/-- An operation that keeps the domains and the class of the executing processor keeps every register of the interface. -/
theorem State.SameSurroundings.sameMsrs {s t : State} (h : s.SameSurroundings t) (hd : s.SameDomains t)
    (h1 : t.me.pqrCos = s.me.pqrCos) (h2 : t.me.pqrLow = s.me.pqrLow) : s.SameMsrs t := by
  intro q r
  unfold State.msrRead; rw [h.cfg]
  cases r with
  | pqrAssoc =>
    simp only [msrResolve, State.readCell]
    by_cases hq : q = s.active
    · subst hq
      have : t.me = t.lp s.active := by unfold State.me; rw [h.active]
      rw [← this, h1, h2]; rfl
    · rw [h.others q hq]
  | qosCfg X => simp [msrResolve, State.readCell, hd.caches]
  | mask X n => simp [msrResolve, State.readCell, State.mask, hd.caches, h.cfg]
  | mbaThrottle n => simp [msrResolve, State.readCell, hd.delays]

end Sys2Proof.Machine
end

