-- ==== Sys2Proof/Laws/Cat.lean ====
section
/-! SUPPORT. What the fill relation, a request and a change of the hidden part of a cache do, each said once. -/

namespace Sys2Proof.Machine

@[simp] theorem State.request_lp (s : State) (p : Nat) (kind : RequestKind) (line : Nat) : (s.request p kind line).lp = p := rfl
@[simp] theorem State.request_line (s : State) (p : Nat) (kind : RequestKind) (line : Nat) :
    (s.request p kind line).line = line := rfl

/-- A request is confined to the mask in force when it was issued. -/
theorem State.request_confines (s : State) (p : Nat) (kind : RequestKind) (line : Nat) (X : Level) :
    (s.request p kind line).confines X = s.maskInForce X p kind := by cases X <;> rfl

/-- A mask in force is the effective mask, of a settled cache. -/
theorem State.maskInForce_eq_some (s : State) (X : Level) (p : Nat) (kind : RequestKind) (m : W32) :
    s.maskInForce X p kind = some m ↔
      (s.cache X (s.cfg.dom X p)).hidden.unsettled = [] ∧ s.effMask X p kind = some m := by
  unfold State.maskInForce; split <;> simp [*]

/-- An effective mask is a mask register of the domain. -/
theorem State.effMask_eq_some (s : State) (X : Level) (p : Nat) (kind : RequestKind) (m : W32)
    (h : s.effMask X p kind = some m) : ∃ n, m = s.mask X (s.cfg.dom X p) n := by
  simp only [State.effMask, State.effMaskOf, Option.map_eq_some_iff] at h
  exact ⟨_, h.choose_spec.2.symm⟩

/-- Where the fill relation lets a request go. -/
theorem State.mayFill_iff (s : State) (r : Request) (X : Level) (i : Nat) : s.mayFill r X i = true ↔
    i < (s.cfg.cache X).cbmLen ∧
      (s.overridden X (s.cfg.dom X r.lp) = true ∨ ∀ m, r.confines X = some m → m.getLsbD i = true) := by
  unfold State.mayFill
  cases r.confines X <;> simp

@[simp] theorem State.setHidden_cfg (s : State) (X : Level) (d : Nat) (h : CacheHidden) : (s.setHidden X d h).cfg = s.cfg := by
  simp [State.setHidden]
@[simp] theorem State.setHidden_requests (s : State) (X : Level) (d : Nat) (h : CacheHidden) :
    (s.setHidden X d h).requests = s.requests := by simp [State.setHidden]
@[simp] theorem State.setHidden_inSmm (s : State) (X : Level) (d : Nat) (h : CacheHidden) :
    (s.setHidden X d h).inSmm = s.inSmm := by simp [State.setHidden]
@[simp] theorem State.lp_setHidden (s : State) (X : Level) (d q : Nat) (h : CacheHidden) :
    (s.setHidden X d h).lp q = s.lp q := by simp [State.setHidden]
@[simp] theorem State.mbaThr_setHidden (s : State) (X : Level) (d e n : Nat) (h : CacheHidden) :
    (s.setHidden X d h).mbaThr e n = s.mbaThr e n := by simp [State.setHidden]

/-- Replacing the hidden part of a cache changes neither its CDP bit nor its masks. -/
theorem State.cache_setHidden (s : State) (X Y : Level) (d e : Nat) (h : CacheHidden) :
    (s.setHidden X d h).cache Y e = if Y = X ∧ e = d then { s.cache X d with hidden := h } else s.cache Y e :=
  s.cache_setCache _ _ _ _ _

@[simp] theorem State.mask_setHidden (s : State) (X Y : Level) (d e n : Nat) (h : CacheHidden) :
    (s.setHidden X d h).mask Y e n = s.mask Y e n := by
  simp only [State.mask, State.cache_setHidden, State.setHidden_cfg]
  split
  · rename_i hh; obtain ⟨rfl, rfl⟩ := hh; rfl
  · rfl

/-- No event changes the configuration; a reset keeps it too. -/
theorem PlatformEvent.apply_cfg (e : PlatformEvent) (s : State) : (e.apply s).cfg = s.cfg := by
  cases e <;> simp [PlatformEvent.apply, State.resetEvent, State.resetWith]
  exact (s.msrWrite_frame _ _ _).1

/-- Placing a line leaves the power state and the toggle hazard. -/
@[simp] theorem CacheHidden.place_override (h : CacheHidden) (line unit : Nat) (ev : List Nat) :
    (h.place line unit ev).override = h.override := rfl
@[simp] theorem CacheHidden.place_unsettled (h : CacheHidden) (line unit : Nat) (ev : List Nat) :
    (h.place line unit ev).unsettled = h.unsettled := rfl

end Sys2Proof.Machine
end

