-- ==== Sys2Proof/Laws/PerInstr.lean ====
section
/-! SUPPORT. Statements made for each instruction of `Instr`. -/

namespace Sys2Proof.Laws

/-- The first byte of an operation's encoding announces its length (30_encoding.md R61). -/
def EncodedLength.Statement (i : Instr) : Prop := lengthOf (encode i) = some (encode i).length

theorem EncodedLength.cpuid : EncodedLength.Statement .cpuid := rfl

theorem EncodedLength.rdmsr : EncodedLength.Statement .rdmsr := rfl

theorem EncodedLength.wrmsr : EncodedLength.Statement .wrmsr := rfl

theorem EncodedLength.load (r : Reg) (imm : W32) : EncodedLength.Statement (.load r imm) := by
  cases r <;> rfl

end Sys2Proof.Laws
end

