-- ==== Sys2Proof/Laws/Reset.lean ====
section
/-! SUPPORT. What each accessor reads right after reset, and after an operation has been loaded. -/

namespace Sys2Proof.Machine

theorem State.cache_resetWith (c : Cfg) (X : Level) (d : Nat) :
    (State.resetWith c).cache X d = CacheState.reset (c.cache X) := by
  cases X <;> simp only [State.cache, State.resetWith, getAt_replicate, Cfg.cache] <;> split <;> rfl

theorem CacheState.mask_reset (c : CacheCfg) (n : Nat) : (CacheState.reset c).mask c n = fullMask c.cbmLen := by
  simp only [CacheState.mask, CacheState.reset]
  split
  · rw [getAt_replicate]; split <;> rfl
  · rfl

theorem State.lp_resetWith (c : Cfg) (p : Nat) : (State.resetWith c).lp p = LpState.reset := by
  simp only [State.lp, State.resetWith, getAt_replicate]; split <;> rfl

theorem State.mbaThr_resetWith (c : Cfg) (d n : Nat) : (State.resetWith c).mbaThr d n = 0 := by
  simp only [State.mbaThr, State.resetWith, getAt_replicate]
  split
  · split
    · rw [getAt_replicate]; split <;> rfl
    · rfl
  · rfl

@[simp] theorem State.resetEvent_cfg (s : State) : s.resetEvent.cfg = s.cfg := rfl
@[simp] theorem State.resetEvent_requests (s : State) : s.resetEvent.requests = [] := rfl
@[simp] theorem State.resetEvent_inSmm (s : State) : s.resetEvent.inSmm = [] := rfl
@[simp] theorem State.resetEvent_tick (s : State) : s.resetEvent.tick = s.tick := rfl
@[simp] theorem State.resetEvent_schedule (s : State) : s.resetEvent.schedule = s.schedule := rfl
@[simp] theorem State.resetEvent_fresh (s : State) : s.resetEvent.fresh = s.fresh := rfl

/-- A list of updated entries, where the update keeps what an index past the end reads as. -/
theorem getAt_map {α : Type} (f : α → α) (dflt : α) (h : f dflt = dflt) (l : List α) (n : Nat) :
    getAt dflt (l.map f) n = f (getAt dflt l n) := by
  simp only [getAt, List.getD_eq_getElem?_getD, List.getElem?_map]; cases l[n]? <;> simp [h]

/-- A reset event leaves every cache and delay register as `State.resetWith` has it, and every processor but for its privilege
level, which stays as it was given. -/
theorem State.resetEvent_spec (s : State) :
    (∀ p, s.resetEvent.lp p = { LpState.reset with cpl := (s.lp p).cpl }) ∧
      (∀ X d, s.resetEvent.cache X d = CacheState.reset (s.cfg.cache X)) ∧ ∀ d n, s.resetEvent.mbaThr d n = 0 :=
  ⟨fun p => getAt_map LpState.resetEvent LpState.reset rfl s.lps p,
    fun X d => (by cases X <;> rfl : s.resetEvent.cache X d = (State.resetWith s.cfg).cache X d).trans (State.cache_resetWith s.cfg X d),
    fun d n => State.mbaThr_resetWith s.cfg d n⟩

@[simp] theorem State.loadOperation_cfg (s : State) (bytes : List Byte) : (s.loadOperation bytes).cfg = s.cfg := rfl

@[simp] theorem State.cache_loadOperation (s : State) (bytes : List Byte) (X : Level) (d : Nat) :
    (s.loadOperation bytes).cache X d = s.cache X d := by cases X <;> rfl

@[simp] theorem State.mbaThr_loadOperation (s : State) (bytes : List Byte) (d n : Nat) :
    (s.loadOperation bytes).mbaThr d n = s.mbaThr d n := rfl

theorem State.lp_loadOperation (s : State) (bytes : List Byte) (q : Nat) :
    (s.loadOperation bytes).lp q =
      if q = s.active then { s.me with prog := putAt [] s.me.prog s.me.pc bytes, fault := none } else s.lp q :=
  s.lp_setMe q _

end Sys2Proof.Machine
end

