-- ==== Sys2Proof/Machine/Flags.lean ====
section
/-! DEFINITION. There is no flag computation: "The model has no flag state" and every rule of an operation says "Flags written:
none" (10_state.md R13; 40_cpuid_enumeration.md R80; 41_msr_access.md R100, R101, R102). The only conditions an operation tests
are the privilege level, the existence of a register and the validity of a value, in Ops.lean and Msr.lean. -/
end

