-- ==== Sys2Proof/Tests/Slice0.lean ====
section
/-! SUPPORT. Tests. Expected values come from spec/: the encodings of 30_encoding.md and the vectors of 95_test_vectors.md, whose
names (M1, K5, …) stand beside the tests. `witness_<Name>` shows that the hypotheses of the obligation of that name can be met. -/

namespace Sys2Proof.Tests

open Sys2Proof.Machine

/-! The configurations of 95_test_vectors.md section 0, and small variants. -/

def cfgA : Cfg := Cfg.vectorsA

def cfgB : Cfg where
  pqe := true
  l3 := { res := false, cbmLenM1 := 0, share := 0, cdp := false, cosMax := 0 }
  l2 := { res := true, cbmLenM1 := 7, share := 0, cdp := true, cosMax := 4 }
  resMba := false
  mbaMax := 1
  mbaLinear := true
  mbaCosMax := 0
  lps := [⟨0, 0, 0, 0⟩]
  pqrLow := .below 1024
  readback := .written

def cfgC : Cfg where
  pqe := true
  l3 := { res := false, cbmLenM1 := 0, share := 0, cdp := false, cosMax := 0 }
  l2 := { res := false, cbmLenM1 := 0, share := 0, cdp := false, cosMax := 0 }
  resMba := true
  mbaMax := 64
  mbaLinear := false
  mbaCosMax := 3
  lps := [⟨0, 0, 0, 0⟩, ⟨0, 0, 0, 0⟩, ⟨1, 0, 0, 0⟩]
  pqrLow := .below 1024
  readback := .written

/-- Cfg A with its two threads on two cores and in two domains of each kind. -/
def cfgA2 : Cfg := { cfgA with lps := [⟨0, 0, 0, 0⟩, ⟨1, 1, 1, 1⟩] }

/-- The reset state of `c` with EAX, ECX, EDX and the privilege level of logical processor 0 as given. -/
def at0 (c : Cfg) (eax ecx edx : W32) (cpl : Fin 4 := 0) : State :=
  (State.resetWith c).setMe { LpState.reset with eax := eax, ecx := ecx, edx := edx, cpl := cpl }

/-- A part of the next state of an outcome. -/
def nextPart {α : Type} (f : State → α) : Host.Outcome State Fault Refusal → Option α
  | .next t => some (f t)
  | .fault _ => none
  | .refused _ => none

/-! Well-formedness: each check refuses an ill-formed configuration. -/

theorem test_wf_vectors : cfgA.wf = true ∧ cfgB.wf = true ∧ cfgC.wf = true ∧ cfgA2.wf = true := by decide

theorem test_wf_refuses_l3_cos_max : { cfgA with l3 := { cfgA.l3 with cosMax := 128 } }.wf = false := by decide

theorem test_wf_refuses_l2_cos_max : { cfgA with l2 := { cfgA.l2 with cosMax := 64 } }.wf = false := by decide

theorem test_wf_refuses_mba_cos_max : { cfgA with mbaCosMax := 65536 }.wf = false := by decide

theorem test_wf_refuses_mba_max_zero : { cfgA with mbaMax := 0 }.wf = false := by decide

theorem test_wf_refuses_cdp_without_cat : { cfgA with l2 := { cfgA.l2 with cdp := true } }.wf = false := by decide

theorem test_wf_refuses_resource_without_pqe : { cfgA with pqe := false }.wf = false := by decide

theorem test_wf_refuses_no_lp : { cfgA with lps := [] }.wf = false := by decide

theorem test_wf_refuses_split_core : { cfgA with lps := [⟨0, 0, 0, 0⟩, ⟨0, 1, 0, 0⟩] }.wf = false := by decide

theorem test_wf_instr : (Instr.load .ebx 0).wf = true := rfl

/-! Decoding: words written out bit by bit from 30_encoding.md R60 and R61. -/

theorem test_decode_cpuid : decode [0b00001111, 0b10100010] = .instr .cpuid := by decide

theorem test_decode_rdmsr : decode [0b00001111, 0b00110010] = .instr .rdmsr := by decide

theorem test_decode_wrmsr : decode [0b00001111, 0b00110000] = .instr .wrmsr := by decide

theorem test_decode_load :
    decode [0b10111001, 0b10001111, 0b00001100, 0b00000000, 0b00000000] = .instr (.load .ecx 0x00000C8F) := by decide

theorem test_decode_rejects :
    decode [] = .reject .noBytes ∧ decode [0x0F] = .reject .truncated ∧
    decode [0x0F, 0x0B] = .reject (.secondByteNotAdmitted 0x0B) ∧ decode [0xBC, 0, 0, 0, 0] = .reject (.firstByteNotAdmitted 0xBC) ∧
    decode [0x0F, 0xA2, 0x90] = .reject .trailingBytes ∧ decode [0xB8, 0, 0, 0] = .reject .truncated := by decide

theorem test_decode_table_words :
    decodeTableWord 16 0x0FA2 = some .cpuid ∧ decodeTableWord 16 0x0F32 = some .rdmsr ∧ decodeTableWord 16 0x0F30 = some .wrmsr ∧
    decodeTableWord 40 0xB800000000 = some (.load .eax 0) ∧ decodeTableWord 40 0xBB78563412 = some (.load .ebx 0x12345678) := by
  decide

/-! One step of each operation. -/

/-- LOAD, from the reset state: the first operation runs (program P1, pc 0). -/
theorem test_load_step :
    nextPart (fun t => (t.me.eax, t.me.ecx, t.me.pc)) (step (State.reset.withFetchWord 40 0xB807000000)) =
      some (0x7, 0, 1) := by decide

/-- E3 and E5: the determined outputs of sub-leaves 1 and 3 on Cfg A. -/
theorem test_cpuid_table :
    cpuidTable cfgA 0x10 1 = some { eax := ⟨0x1F, 0xF⟩, ebx := ⟨0xFFFF, 0xC000⟩, ecx := ⟨4, 4⟩, edx := ⟨0xFFFF, 0xF⟩ } ∧
    cpuidTable cfgA 0x10 3 = some { eax := ⟨0xFFF, 0x59⟩, ebx := ⟨0, 0⟩, ecx := ⟨4, 4⟩, edx := ⟨0xFFFF, 7⟩ } := by decide

/-- E1, E12, E13: leaf 07H runs, leaf 01H and leaf 07H sub-leaf 1 are refused. -/
theorem test_cpuid_leaves :
    cpuidTable cfgA 0x7 0 = some { openOutput with ebx := ⟨0x8000, 0x8000⟩ } ∧ cpuidTable cfgA 0x1 0 = none ∧
      cpuidTable cfgA 0x7 1 = none := by decide

/-- M1: RDMSR 0C90H after reset. -/
theorem test_rdmsr_mask :
    nextPart (fun t => (t.me.edx, t.me.eax, t.me.pc)) (step ((at0 cfgA 5 0xC90 7).withFetchWord 16 0x0F32)) =
      some (0, 0xFFFF, 1) := by decide

/-- M8: RDMSR 0C82H takes `#GP(0)` without a value. -/
theorem test_rdmsr_gp0 :
    nextPart (fun t => (t.me.fault, t.me.pc)) (step ((at0 cfgA 5 0xC82 7).withFetchWord 16 0x0F32)) =
      some (some ⟨0, 0xC82, none⟩, 0) := by decide

/-- K10: WRMSR 0C9FH stores 0FF0H, for the whole domain. -/
theorem test_wrmsr_mask :
    nextPart (fun t => (t.msrRead 1 (.mask .l3 15), t.msrRead 1 (.mask .l3 14), t.me.pc))
      (step ((at0 cfgA 0xFF0 0xC9F 0).withFetchWord 16 0x0F30)) = some (0xFF0, 0xFFFF, 1) := by decide

/-- K5: WRMSR 0C90H of a mask with a gap takes `#GP(0)` and stores nothing. -/
theorem test_wrmsr_gp0 :
    nextPart (fun t => (t.me.fault, t.msrRead 0 (.mask .l3 0), t.me.pc))
      (step ((at0 cfgA 5 0xC90 0).withFetchWord 16 0x0F30)) = some (some ⟨0, 0xC90, some 5⟩, 0xFFFF, 0) := by decide

/-! Helper functions. -/

/-- H1 and K7. -/
theorem test_contig :
    contig 0 = false ∧ contig 1 = true ∧ contig 0x3C = true ∧ contig 0x8001 = false ∧ contig 0xF0F = false ∧
      contig 0x1FFFF = true ∧ popcnt 0xFF7F = 15 := by decide

/-- B8 on Cfg A, B9 on Cfg C. -/
theorem test_applied :
    mbaApplied cfgA 9 = 0 ∧ mbaApplied cfgA 12 = 10 ∧ mbaApplied cfgA 89 = 80 ∧ mbaApplied cfgC 3 = 2 ∧
      mbaApplied cfgC 63 = 32 ∧ mbaApplied cfgC 64 = 64 := by decide

/-- H3, Q1 to Q4 and Q10, Q11. -/
theorem test_pqr_valid :
    cosMaxAll cfgA = 15 ∧ writeValid cfgA .pqrAssoc 0xF00000000 = true ∧ writeValid cfgA .pqrAssoc 0x1000000000 = false ∧
      writeValid cfgA .pqrAssoc 1023 = true ∧ writeValid cfgA .pqrAssoc 1024 = false ∧
      writeValid cfgB .pqrAssoc 0x400000000 = true ∧ writeValid cfgB .pqrAssoc 0x500000000 = false := by decide

/-! Witnesses. -/

/-- Cfg A with a `CPUID`, a `RDMSR` of a register that is not there, and bytes that are no operation, loaded. -/
def runCpuid : State := (at0 cfgA 0x10 0 0).withFetchWord 16 0x0FA2

def runBadRdmsr : State := (at0 cfgA 0 0xC82 0).withFetchWord 16 0x0F32

def runNothing : State := State.reset.withFetchWord 16 0x0F0B

/-- Each side of the equivalence, and bytes that are on neither side. -/
theorem witness_EncodeOfDecode :
    decode [0x0F, 0xA2] = .instr .cpuid ∧ encode (.load .ecx 0xC8F) = [0xB9, 0x8F, 0x0C, 0x00, 0x00] ∧
      decode [0xB9, 0x8F, 0x0C, 0x00] = .reject .truncated := by decide

theorem witness_StepRunsFetchedOperation :
    runCpuid.mover = some 0 ∧ decode (runCpuid.fetch 0) = .instr .cpuid := by decide

theorem witness_StepRefusesOtherBytes :
    runNothing.mover = some 0 ∧ decode (runNothing.fetch 0) = .reject (.secondByteNotAdmitted 0x0B) := by decide

theorem witness_MoverIsAbleToStep : runCpuid.mover = some 0 ∧ State.reset.mover = none := by decide

/-- Logical processor 1 has recorded `#GP(0)` and logical processor 0 has a `LOAD` to run. -/
def oneFaulted : State :=
  (State.reset.setLp 1 { LpState.reset with fault := some ⟨0, 0xC82, none⟩, prog := [[0x0F, 0x32]] }).withFetchWord 40 0xB807000000

/-- Logical processor 1 has recorded `#GP(0)` and logical processor 0 has no program. -/
def onlyFaulted : State :=
  State.reset.setLp 1 { LpState.reset with fault := some ⟨0, 0xC82, none⟩, prog := [[0x0F, 0x32]] }

theorem witness_StopsOnlyWhenNoOneCanStep :
    step State.reset = .fault .runEnded ∧ step onlyFaulted = .fault .stoppedByGP0 := ⟨rfl, rfl⟩

theorem witness_StepMovesOneProcessor : (∃ t, step runCpuid = .next t) ∧ ∃ t, step runBadRdmsr = .next t :=
  ⟨⟨_, rfl⟩, ⟨_, rfl⟩⟩

theorem witness_RecordedFaultIsFinal :
    (∃ t, step oneFaulted = .next t) ∧ (oneFaulted.lp 1).fault = some ⟨0, 0xC82, none⟩ := ⟨⟨_, rfl⟩, by decide⟩

theorem witness_CpuidCompletes :
    ((at0 cfgA 0x7 0 0).me.eax = 0x7 ∧ (at0 cfgA 0x7 0 0).me.ecx = 0) ∧ (at0 cfgA 0x10 0xFFFFFFFF 0 3).me.eax = 0x10 := by decide

theorem witness_CpuidLeaf7Result : (at0 cfgA 0x7 0 0).me.eax = 0x7 ∧ (at0 cfgA 0x7 0 0).me.ecx = 0 := by decide

theorem witness_CpuidResourcesResult :
    (at0 cfgA 0x10 0 0).me.eax = 0x10 ∧ (at0 cfgA 0x10 0 0).me.ecx = 0 ∧ (at0 cfgA 0x10 0 0).cfg.pqe = true := by decide

theorem witness_CpuidCacheResult_l3 :
    (at0 cfgA 0x10 1 0).me.eax = 0x10 ∧ (at0 cfgA 0x10 1 0).me.ecx = resId .l3 ∧ (at0 cfgA 0x10 1 0).cfg.pqe = true ∧
      ((at0 cfgA 0x10 1 0).cfg.cache .l3).res = true ∧ ((at0 cfgA 0x10 1 0).cfg.cache .l3).cosMax ≤ 65535 ∧
      15 < ((at0 cfgA 0x10 1 0).cfg.cache .l3).cbmLen := by decide

theorem witness_CpuidCacheResult_l2 :
    (at0 cfgB 0x10 2 0).me.eax = 0x10 ∧ (at0 cfgB 0x10 2 0).me.ecx = resId .l2 ∧ (at0 cfgB 0x10 2 0).cfg.pqe = true ∧
      ((at0 cfgB 0x10 2 0).cfg.cache .l2).res = true ∧ ((at0 cfgB 0x10 2 0).cfg.cache .l2).cosMax ≤ 65535 := by decide

theorem witness_CpuidMbaResult :
    (at0 cfgC 0x10 3 0).me.eax = 0x10 ∧ (at0 cfgC 0x10 3 0).me.ecx = 3 ∧ (at0 cfgC 0x10 3 0).cfg.pqe = true ∧
      (at0 cfgC 0x10 3 0).cfg.resMba = true ∧ 1 ≤ (at0 cfgC 0x10 3 0).cfg.mbaMax ∧ (at0 cfgC 0x10 3 0).cfg.mbaMax ≤ 4096 ∧
      (at0 cfgC 0x10 3 0).cfg.mbaCosMax ≤ 65535 := by decide

theorem witness_CpuidRefusesOtherLeaves :
    (at0 cfgA 0x7 1 0).me.eax ≠ 0x10 ∧ ¬ ((at0 cfgA 0x7 1 0).me.eax = 0x7 ∧ (at0 cfgA 0x7 1 0).me.ecx = 0) := by decide

/-- E11, E4, E6: no PQE, a resource that is absent, a sub-leaf that is no resource. -/
theorem witness_CpuidUnsupportedSubleafIsFree :
    ((at0 { cfgA with pqe := false } 0x10 0 0).me.eax = 0x10 ∧ (at0 { cfgA with pqe := false } 0x10 0 0).cfg.pqe = false) ∧
    ((at0 cfgA 0x10 2 0).me.eax = 0x10 ∧ (at0 cfgA 0x10 2 0).me.ecx ≠ 0 ∧ (at0 cfgA 0x10 2 0).me.ecx ≠ 1 ∧
      (at0 cfgA 0x10 2 0).cfg.l2.res = false ∧ (at0 cfgA 0x10 2 0).me.ecx ≠ 3) ∧
    ((at0 cfgA 0x10 4 0).me.eax = 0x10 ∧ (at0 cfgA 0x10 4 0).me.ecx ≠ 0 ∧ (at0 cfgA 0x10 4 0).me.ecx ≠ 1 ∧
      (at0 cfgA 0x10 4 0).me.ecx ≠ 2 ∧ (at0 cfgA 0x10 4 0).me.ecx ≠ 3) := by decide

theorem witness_CpuidIgnoresRegisters :
    (at0 cfgA 0x10 1 0).cfg = (at0 cfgA 0x10 1 9 3).cfg ∧ (at0 cfgA 0x10 1 0).fresh = (at0 cfgA 0x10 1 9 3).fresh ∧
      (at0 cfgA 0x10 1 0).me.eax = (at0 cfgA 0x10 1 9 3).me.eax ∧ (at0 cfgA 0x10 1 0).me.ecx = (at0 cfgA 0x10 1 9 3).me.ecx ∧
      (∃ t, exec .cpuid (at0 cfgA 0x10 1 0) = .next t) ∧ ∃ t, exec .cpuid (at0 cfgA 0x10 1 9 3) = .next t :=
  ⟨rfl, rfl, rfl, rfl, ⟨_, rfl⟩, ⟨_, rfl⟩⟩

theorem witness_RdmsrResult :
    (at0 cfgA 0 0xC90 0).me.cpl = 0 ∧
      msrLookup (at0 cfgA 0 0xC90 0).cfg (at0 cfgA 0 0xC90 0).me.ecx = .implemented (.mask .l3 0) := by decide

theorem witness_RdmsrPqrValue :
    (at0 cfgA 0 0xC8F 0).me.cpl = 0 ∧ (at0 cfgA 0 0xC8F 0).cfg.pqe = true ∧ (at0 cfgA 0 0xC8F 0).me.ecx = 0xC8F := by decide

theorem witness_RdmsrMaskValue_l3 :
    (at0 cfgA 0 0xC9F 0).cfg.wf = true ∧ (at0 cfgA 0 0xC9F 0).me.cpl = 0 ∧ ((at0 cfgA 0 0xC9F 0).cfg.cache .l3).res = true ∧
      15 ≤ ((at0 cfgA 0 0xC9F 0).cfg.cache .l3).cosMax ∧
      (at0 cfgA 0 0xC9F 0).me.ecx = BitVec.ofNat 32 (maskBase .l3 + 15) := by decide

theorem witness_RdmsrMaskValue_l2 :
    (at0 cfgB 0 0xD14 0).cfg.wf = true ∧ (at0 cfgB 0 0xD14 0).me.cpl = 0 ∧ ((at0 cfgB 0 0xD14 0).cfg.cache .l2).res = true ∧
      4 ≤ ((at0 cfgB 0 0xD14 0).cfg.cache .l2).cosMax ∧
      (at0 cfgB 0 0xD14 0).me.ecx = BitVec.ofNat 32 (maskBase .l2 + 4) := by decide

theorem witness_RdmsrQosCfgValue :
    ((at0 cfgA 0 0xC81 0).me.cpl = 0 ∧ ((at0 cfgA 0 0xC81 0).cfg.cache .l3).cdp = true ∧
      (at0 cfgA 0 0xC81 0).me.ecx = qosCfgAddress .l3) ∧
    ((at0 cfgB 0 0xC82 0).me.cpl = 0 ∧ ((at0 cfgB 0 0xC82 0).cfg.cache .l2).cdp = true ∧
      (at0 cfgB 0 0xC82 0).me.ecx = qosCfgAddress .l2) := by decide

theorem witness_RdmsrMbaValue :
    (at0 cfgA 0 0xD57 0).cfg.wf = true ∧ (at0 cfgA 0 0xD57 0).me.cpl = 0 ∧ (at0 cfgA 0 0xD57 0).cfg.resMba = true ∧
      7 ≤ (at0 cfgA 0 0xD57 0).cfg.mbaCosMax ∧ (at0 cfgA 0 0xD57 0).me.ecx = BitVec.ofNat 32 (0xD50 + 7) := by decide

/-- M6, and M9, M12, M13: no register, at the boundaries of the blocks. -/
theorem witness_RdmsrTakesGP0 :
    (at0 cfgA 0 0xC90 0 3).cfg.wf = true ∧ (at0 cfgA 0 0xC90 0 3).me.cpl ≠ 0 ∧
    (rdtAddress (at0 cfgA 0 0xCA0 0).me.ecx.toNat ∧ ¬ msrExists (at0 cfgA 0 0xCA0 0).cfg (at0 cfgA 0 0xCA0 0).me.ecx.toNat) ∧
    (rdtAddress (at0 cfgA 0 0xD58 0).me.ecx.toNat ∧ ¬ msrExists (at0 cfgA 0 0xD58 0).cfg (at0 cfgA 0 0xD58 0).me.ecx.toNat) ∧
    (rdtAddress (at0 cfgA 0 0xD8F 0).me.ecx.toNat ∧ ¬ msrExists (at0 cfgA 0 0xD8F 0).cfg (at0 cfgA 0 0xD8F 0).me.ecx.toNat) ∧
    (at0 cfgA 0 0xD8F 0).cfg.wf = true ∧ (at0 cfgA 0 0xCA0 0).cfg.wf = true := by
  unfold rdtAddress msrExists
  exact ⟨by decide, by decide, by decide, by decide, by decide, by decide, by decide⟩

/-- One address of each kind: 0C9FH, 0CA0H, 0D90H. At 0D90H, where the last line of `MsrExists` and the end of the hierarchy meet:
outside with an MBA_COS_MAX of 63, implemented with one of 64 (log 11). -/
theorem witness_MsrLookupMatchesMap :
    cfgA.wf = true ∧ msrLookup cfgA 0xC9F = .implemented (.mask .l3 15) ∧ msrLookup cfgA 0xCA0 = .absent ∧
      msrLookup cfgA 0xD90 = .outside ∧ msrLookup cfgA 0xC8E = .outside ∧
      { cfgA with mbaCosMax := 63 }.wf = true ∧ msrLookup { cfgA with mbaCosMax := 63 } 0xD8F = .implemented (.mbaThrottle 63) ∧
      msrLookup { cfgA with mbaCosMax := 63 } 0xD90 = .outside ∧
      { cfgA with mbaCosMax := 64 }.wf = true ∧
      msrLookup { cfgA with mbaCosMax := 64 } 0xD90 = .implemented (.mbaThrottle 64) := by decide

/-- M14, at the boundary of the hierarchy. -/
theorem witness_AccessOutsideIsRefused :
    (at0 cfgA 0 0xD90 0).cfg.wf = true ∧ (at0 cfgA 0 0xD90 0).me.cpl = 0 ∧ ¬ rdtAddress (at0 cfgA 0 0xD90 0).me.ecx.toNat ∧
      ¬ msrExists (at0 cfgA 0 0xD90 0).cfg (at0 cfgA 0 0xD90 0).me.ecx.toNat := by
  unfold rdtAddress msrExists; decide

theorem witness_MaskAddressesUnderCdp :
    ((Level.l3 = .l3 → 63 ≤ 63) ∧ (Level.l3 = .l2 → 63 ≤ 31)) ∧ (Level.l2 = .l3 → 31 ≤ 63) ∧ (Level.l2 = .l2 → 31 ≤ 31) := by
  decide

/-- K10. -/
theorem witness_WrmsrStoresOneCell :
    (at0 cfgA 0xFF0 0xC9F 0).me.cpl = 0 ∧
      msrLookup (at0 cfgA 0xFF0 0xC9F 0).cfg (at0 cfgA 0xFF0 0xC9F 0).me.ecx = .implemented (.mask .l3 15) ∧
      writeValid (at0 cfgA 0xFF0 0xC9F 0).cfg (.mask .l3 15)
        ((at0 cfgA 0xFF0 0xC9F 0).me.edx ++ (at0 cfgA 0xFF0 0xC9F 0).me.eax) = true := by decide

/-- M7, M10 and K2. -/
theorem witness_WrmsrTakesGP0 :
    ((at0 cfgA 0xFF 0xC90 0 3).cfg.wf = true ∧ (at0 cfgA 0xFF 0xC90 0 3).me.cpl ≠ 0) ∧
    (rdtAddress (at0 cfgA 0xFFFF 0xCA0 0).me.ecx.toNat ∧
      ¬ msrExists (at0 cfgA 0xFFFF 0xCA0 0).cfg (at0 cfgA 0xFFFF 0xCA0 0).me.ecx.toNat) ∧
    (msrLookup (at0 cfgA 0 0xC90 0).cfg (at0 cfgA 0 0xC90 0).me.ecx = .implemented (.mask .l3 0) ∧
      writeValid (at0 cfgA 0 0xC90 0).cfg (.mask .l3 0)
        ((at0 cfgA 0 0xC90 0).me.edx ++ (at0 cfgA 0 0xC90 0).me.eax) = false) := by
  unfold rdtAddress msrExists; decide

/-- K1 and K6: the full mask, and the first reserved bit. -/
theorem witness_MaskWriteResult :
    ((at0 cfgA 0xFFFF 0xC90 0).cfg.wf = true ∧ (at0 cfgA 0xFFFF 0xC90 0).me.cpl = 0 ∧
      ((at0 cfgA 0xFFFF 0xC90 0).cfg.cache .l3).res = true ∧ 0 ≤ ((at0 cfgA 0xFFFF 0xC90 0).cfg.cache .l3).cosMax ∧
      (at0 cfgA 0xFFFF 0xC90 0).me.ecx = BitVec.ofNat 32 (maskBase .l3 + 0) ∧
      ∃ lo k, 1 ≤ k ∧ lo + k ≤ ((at0 cfgA 0xFFFF 0xC90 0).cfg.cache .l3).cbmLen ∧
        ((at0 cfgA 0xFFFF 0xC90 0).me.edx ++ (at0 cfgA 0xFFFF 0xC90 0).me.eax : W64).toNat = (2 ^ k - 1) * 2 ^ lo) ∧
    writeValid cfgA (.mask .l3 0) ((at0 cfgA 0x10000 0xC90 0).me.edx ++ (at0 cfgA 0x10000 0xC90 0).me.eax) = false :=
  ⟨⟨by decide, by decide, by decide, by decide, by decide, 0, 16, by decide, by decide, by decide⟩, by decide⟩

/-- Q1 and Q2. -/
theorem witness_PqrWriteResult :
    (at0 cfgA 0 0xC8F 15).me.cpl = 0 ∧ (at0 cfgA 0 0xC8F 15).cfg.pqe = true ∧ (at0 cfgA 0 0xC8F 15).me.ecx = 0xC8F ∧
      ((at0 cfgA 0 0xC8F 15).me.edx.toNat ≤ cosMaxAll cfgA ∧ pqrLowValid cfgA (at0 cfgA 0 0xC8F 15).me.eax = true) ∧
      ¬ (at0 cfgA 0 0xC8F 16).me.edx.toNat ≤ cosMaxAll cfgA := by decide

/-- X1 and X3. -/
theorem witness_QosCfgWriteResult :
    (at0 cfgA 1 0xC81 0).me.cpl = 0 ∧ ((at0 cfgA 1 0xC81 0).cfg.cache .l3).cdp = true ∧
      (at0 cfgA 1 0xC81 0).me.ecx = qosCfgAddress .l3 ∧
      ((at0 cfgA 1 0xC81 0).me.edx = 0 ∧ ((at0 cfgA 1 0xC81 0).me.eax = 0 ∨ (at0 cfgA 1 0xC81 0).me.eax = 1)) ∧
      ¬ ((at0 cfgA 2 0xC81 0).me.eax = 0 ∨ (at0 cfgA 2 0xC81 0).me.eax = 1) := by decide

/-- B2 and B3, at index 7. -/
theorem witness_MbaWriteResult :
    (at0 cfgA 90 0xD57 0).cfg.wf = true ∧ (at0 cfgA 90 0xD57 0).me.cpl = 0 ∧ (at0 cfgA 90 0xD57 0).cfg.resMba = true ∧
      7 ≤ (at0 cfgA 90 0xD57 0).cfg.mbaCosMax ∧ (at0 cfgA 90 0xD57 0).me.ecx = BitVec.ofNat 32 (0xD50 + 7) ∧
      ((at0 cfgA 90 0xD57 0).me.edx = 0 ∧ (at0 cfgA 90 0xD57 0).me.eax.toNat < 65536 ∧
        (at0 cfgA 90 0xD57 0).me.eax.toNat ≤ (at0 cfgA 90 0xD57 0).cfg.mbaMax) ∧
      ¬ (at0 cfgA 91 0xD57 0).me.eax.toNat ≤ cfgA.mbaMax := by decide

theorem witness_CosMaxAllIsMaximum : (cfgA.cache .l3).res = true ∧ cfgA.resMba = true ∧ (cfgB.cache .l2).res = true := by decide

/-- X8: Cfg A with mask 1 at 0FF0H, and a `WRMSR` of 1 to IA32_L3_QOS_CFG. -/
def toggleX8 : State := (at0 cfgA 1 0xC81 0).msrWrite 0 (.mask .l3 1) 0xFF0

theorem witness_CdpToggleKeepsRegisters :
    toggleX8.me.cpl = 0 ∧ msrLookup toggleX8.cfg toggleX8.me.ecx = .implemented (.qosCfg .l3) ∧
      writeValid toggleX8.cfg (.qosCfg .l3) (toggleX8.me.edx ++ toggleX8.me.eax) = true ∧
      ∃ t, exec .wrmsr toggleX8 = .next t := ⟨by decide, by decide, by decide, ⟨_, rfl⟩⟩

/-- The premises of `CdpIsPerCache` are those of `CdpToggleKeepsRegisters` and two levels that differ. -/
theorem witness_CdpIsPerCache :
    Level.l3 ≠ .l2 ∧ toggleX8.me.cpl = 0 ∧ msrLookup toggleX8.cfg toggleX8.me.ecx = .implemented (.qosCfg .l3) ∧
      writeValid toggleX8.cfg (.qosCfg .l3) (toggleX8.me.edx ++ toggleX8.me.eax) = true ∧
      ∃ t, exec .wrmsr toggleX8 = .next t := ⟨by decide, by decide, by decide, by decide, ⟨_, rfl⟩⟩

/-- CDP not supported, and CDP supported and off; a class at the maximum, and one above it. -/
theorem witness_EffMaskInCatOnlyMode :
    (((at0 { cfgA with l3 := { cfgA.l3 with cdp := false } } 0 0 0).cfg.cache .l3).res = true ∧
      ((at0 { cfgA with l3 := { cfgA.l3 with cdp := false } } 0 0 0).cfg.cache .l3).cdp = false) ∧
    (((at0 cfgA 0 0 0).cfg.cache .l3).res = true ∧
      ((at0 cfgA 0 0 0).cache .l3 ((at0 cfgA 0 0 0).cfg.dom .l3 0)).cdp = false) ∧
    (((at0 cfgA 0 0 0).msrWrite 0 .pqrAssoc 0xF00000000).lp 0).pqrCos.toNat ≤ (cfgA.cache .l3).cosMax ∧
    ¬ ((((at0 cfgA 0 0 0).msrWrite 0 .pqrAssoc 0x1000000000).lp 0).pqrCos.toNat ≤ (cfgA.cache .l3).cosMax) := by decide

/-- X5 with class 7, and with class 8. -/
def cdpOn (cos : W64) : State := ((at0 cfgA 0 0 0).msrWrite 0 (.qosCfg .l3) 1).msrWrite 0 .pqrAssoc (cos <<< 32)

theorem witness_EffMaskUnderCdp :
    ((cdpOn 7).cfg.cache .l3).res = true ∧ ((cdpOn 7).cfg.cache .l3).cdp = true ∧
      ((cdpOn 7).cache .l3 ((cdpOn 7).cfg.dom .l3 0)).cdp = true ∧
      2 * ((cdpOn 7).lp 0).pqrCos.toNat + 1 ≤ ((cdpOn 7).cfg.cache .l3).cosMax ∧
      ¬ 2 * ((cdpOn 8).lp 0).pqrCos.toNat + 1 ≤ ((cdpOn 8).cfg.cache .l3).cosMax := by decide

theorem witness_UsableCdpClasses :
    cfgA.l3.res = true ∧ cfgA.l3.cdp = true ∧ cfgA.l3.cosMax % 2 = 1 ∧
      cfgB.l2.res = true ∧ cfgB.l2.cdp = true ∧ cfgB.l2.cosMax % 2 = 0 ∧ cfgB.l2.cosMax = 4 := by decide

/-- Classes 1 and 2 with the masks 00FFH and FF00H, on the two logical processors of Cfg A (95_test_vectors.md section 2.4). -/
def isolated : State :=
  ((((at0 cfgA 0 0 0).msrWrite 0 (.mask .l3 1) 0xFF).msrWrite 0 (.mask .l3 2) 0xFF00).msrWrite 0 .pqrAssoc 0x100000000).msrWrite 1
    .pqrAssoc 0x200000000

/-- `isolated` after a request of logical processor 0 for line 7, whose mask is 00FFH. -/
def underWay : State := (PlatformEvent.issue 0 .data 7).apply isolated

/-- The state after X8: CDP on, no index of the L3 cache settled. -/
def unsettledL3 : State := toggleX8.msrWrite 0 (.qosCfg .l3) 1

/-- A mask in force without an override; no mask in force, of a class above the maximum and of an unpaired one under CDP; an
unsettled cache; and each of the three overrides. -/
theorem witness_RequestsFillInsideTheirMask :
    (underWay.cfg = isolated.cfg ∧ isolated.effMask .l3 0 .data = some 0xFF ∧
      (isolated.cache .l3 (isolated.cfg.dom .l3 0)).hidden.unsettled = [] ∧
      underWay.overridden .l3 (isolated.cfg.dom .l3 0) = false) ∧
    (((at0 cfgA 0 0 0).msrWrite 0 .pqrAssoc 0x1000000000).effMask .l3 0 .data = none ∧ (cdpOn 8).effMask .l3 0 .code = none) ∧
    (unsettledL3.cache .l3 (unsettledL3.cfg.dom .l3 0)).hidden.unsettled ≠ [] ∧
    ((PlatformEvent.setOverride .l3 0 true).apply isolated).overridden .l3 0 = true ∧
    unsettledL3.overridden .l3 0 = true ∧ ((PlatformEvent.smi 1).apply isolated).overridden .l3 0 = true := by decide

/-- 42_cat.md R136: a fill of an issued request inside its mask is possible, one outside it is not, nor one of a request that was
never issued. -/
theorem test_fill_possible :
    (PlatformEvent.fill (isolated.request 0 .data 7) .l3 7 []).possible underWay = true ∧
      (PlatformEvent.fill (isolated.request 0 .data 7) .l3 8 []).possible underWay = false ∧
      (PlatformEvent.fill { isolated.request 0 .data 7 with l3 := none } .l3 8 []).possible underWay = false ∧
      (PlatformEvent.fill (isolated.request 0 .data 7) .l3 7 []).possible isolated = false := by decide

/-- 92_eei_decisions.md D18, D31: after a hazardous toggle, and after an SMI, the request that was under way may go to any unit. -/
theorem test_fill_under_override :
    (PlatformEvent.fill (isolated.request 0 .data 7) .l3 15 []).possible (underWay.msrWrite 0 (.qosCfg .l3) 1) = true ∧
      (PlatformEvent.fill (isolated.request 0 .data 7) .l3 15 []).possible ((PlatformEvent.smi 1).apply underWay) = true ∧
      (PlatformEvent.fill (isolated.request 0 .data 7) .l3 16 []).possible ((PlatformEvent.smi 1).apply underWay) = false ∧
      (PlatformEvent.fill (isolated.request 0 .data 7) .l3 15 []).possible
        ((PlatformEvent.smmReturn 1).apply ((PlatformEvent.smi 1).apply underWay)) = false := by decide

/-- 70_reset_and_hazards.md R222, R229: a reset event after a mask write, a CPUID and an SMI; the free words drawn later are new ones. -/
theorem test_reset_event :
    nextPart (fun t => (t.fresh, (PlatformEvent.reset.apply ((PlatformEvent.smi 1).apply (t.msrWrite 0 (.mask .l3 1) 0xFF))).fresh,
      (PlatformEvent.reset.apply ((PlatformEvent.smi 1).apply (t.msrWrite 0 (.mask .l3 1) 0xFF))).inSmm,
      (PlatformEvent.reset.apply ((PlatformEvent.smi 1).apply (t.msrWrite 0 (.mask .l3 1) 0xFF))).msrRead 0 (.mask .l3 1)))
      (exec .cpuid (at0 cfgA 0x10 0 0)) = some (4, 4, [], 0xFFFF) := by decide

/-- 92_eei_decisions.md D23: a reset event keeps the privilege level given, and clears ECX and the fault record. -/
theorem test_reset_event_keeps_cpl :
    nextPart (fun t => (t.me.fault.isSome, (PlatformEvent.reset.apply t).me.cpl, (PlatformEvent.reset.apply t).me.ecx,
      (PlatformEvent.reset.apply t).me.fault)) (exec .rdmsr (at0 cfgA 0 0xC90 0 3)) = some (true, 3, 0, none) := by decide

theorem witness_OverlapMeansSharedUnit :
    isolated.cfg.dom .l3 0 = isolated.cfg.dom .l3 1 ∧ isolated.effMask .l3 0 .code = some 0xFF ∧
      isolated.effMask .l3 1 .data = some 0xFF00 ∧ (0xFF : W32).toNat < 2 ^ (isolated.cfg.cache .l3).cbmLen ∧
      isolated.overridden .l3 (isolated.cfg.dom .l3 0) = false ∧
      overlap 0xFF 0xFF00 = false ∧ overlap 0xFF 0xFFFF = true := by decide

theorem witness_HazardousToggleUnsettles :
    toggleX8.me.eax.getLsbD 0 ≠ (toggleX8.cache .l3 (toggleX8.cfg.dom .l3 toggleX8.active)).cdp ∧
      1 ≤ (toggleX8.cfg.cache .l3).cosMax ∧
      toggleX8.mask .l3 (toggleX8.cfg.dom .l3 toggleX8.active) 1 ≠ fullMask (toggleX8.cfg.cache .l3).cbmLen ∧
      toggleX8.cfg.dom .l3 1 = toggleX8.cfg.dom .l3 toggleX8.active ∧ toggleX8.me.cpl = 0 ∧
      msrLookup toggleX8.cfg toggleX8.me.ecx = .implemented (.qosCfg .l3) ∧
      writeValid toggleX8.cfg (.qosCfg .l3) (toggleX8.me.edx ++ toggleX8.me.eax) = true ∧
      ∃ t, exec .wrmsr toggleX8 = .next t :=
  ⟨by decide, by decide, by decide, by decide, by decide, by decide, by decide, ⟨_, rfl⟩⟩

/-- P3 changes the bit while every mask is full, and writing 0 when the bit is 0, with a mask that is not full, leaves it. -/
theorem witness_HazardousToggleUnsettles_settled :
    ((at0 cfgA 1 0xC81 0).me.eax.getLsbD 0 ≠ ((at0 cfgA 1 0xC81 0).cache .l3 0).cdp ∧
      (∀ n, n ≤ ((at0 cfgA 1 0xC81 0).cfg.cache .l3).cosMax →
        (at0 cfgA 1 0xC81 0).mask .l3 0 n = fullMask ((at0 cfgA 1 0xC81 0).cfg.cache .l3).cbmLen) ∧
      nextPart (fun t => (t.cache .l3 0).hidden.unsettled) (exec .wrmsr (at0 cfgA 1 0xC81 0)) = some []) ∧
    (({ toggleX8 with lps := (at0 cfgA 0 0xC81 0).lps }).me.eax.getLsbD 0 = (toggleX8.cache .l3 0).cdp ∧
      nextPart (fun t => (t.cache .l3 0).hidden.unsettled) (exec .wrmsr { toggleX8 with lps := (at0 cfgA 0 0xC81 0).lps }) =
        some []) :=
  ⟨⟨by decide, fun n _ => by simp only [State.mask, at0, State.cache_setMe, State.cache_resetWith]; exact CacheState.mask_reset _ n,
    by decide⟩, by decide, by decide⟩

theorem witness_MaskWritesSettle :
    (at0 cfgA 0xFF0 0xC9F 0).me.cpl = 0 ∧
      msrLookup (at0 cfgA 0xFF0 0xC9F 0).cfg (at0 cfgA 0xFF0 0xC9F 0).me.ecx = .implemented (.mask .l3 15) ∧
      writeValid (at0 cfgA 0xFF0 0xC9F 0).cfg (.mask .l3 15)
        ((at0 cfgA 0xFF0 0xC9F 0).me.edx ++ (at0 cfgA 0xFF0 0xC9F 0).me.eax) = true ∧
      ∃ t, exec .wrmsr (at0 cfgA 0xFF0 0xC9F 0) = .next t := ⟨by decide, by decide, by decide, ⟨_, rfl⟩⟩

theorem witness_LinesStay : ∃ t, exec .wrmsr toggleX8 = .next t := ⟨_, rfl⟩

/-- An event that is neither a reset nor a handler's write; and a handler's write, of a mask and of the highest class, which only the
handler can make. -/
theorem witness_PlatformEventsKeepRegisters :
    (PlatformEvent.flush .l3 0 [] ≠ .reset ∧ ∀ p r v, PlatformEvent.flush .l3 0 [] ≠ .smmWrite p r v) ∧
    (PlatformEvent.smmWrite 1 (.mask .l3 15) 0xFF0).possible ((PlatformEvent.smi 1).apply State.reset) = true ∧
    (PlatformEvent.smmWrite 1 .pqrAssoc 0xF00000000).possible ((PlatformEvent.smi 1).apply State.reset) = true ∧
    (PlatformEvent.smmWrite 1 .pqrAssoc 0xF00000000).possible State.reset = false := by
  refine ⟨⟨by decide, fun p r v h => by cases h⟩, by decide, by decide, by decide⟩

theorem witness_ResetIsUnrestricted : (cfgA.cache .l3).res = true ∧ (cfgB.cache .l2).res = true := by decide

theorem witness_AppliedInLinearMode :
    ({ cfgA with mbaMax := 99 }.mbaLinear = true ∧ { cfgA with mbaMax := 99 }.mbaMax < 100) ∧
      { cfgA with mbaMax := 100 }.mbaLinear = true ∧ 100 ≤ { cfgA with mbaMax := 100 }.mbaMax := by decide

theorem witness_AppliedInPowerOfTwoMode : cfgC.mbaLinear = false ∧ 1 ≤ 1 := by decide

/-- Q7 and its neighbour: a class at MBA_COS_MAX, and one above it. -/
theorem witness_CoreDelayIsMaximum :
    (1 < (at0 cfgA 0 0 0).cfg.lps.length ∧ ((at0 cfgA 0 0 0).cfg.place 1).core = 0) ∧
      ((at0 cfgA 0 0 0).cfg.resMba = true ∧
        (((at0 cfgA 0 0 0).msrWrite 0 .pqrAssoc 0x700000000).lp 0).pqrCos.toNat ≤ cfgA.mbaCosMax) ∧
      cfgA.mbaCosMax < (((at0 cfgA 0 0 0).msrWrite 0 .pqrAssoc 0x800000000).lp 0).pqrCos.toNat := by decide

theorem witness_ResetMasksAreFull : 15 ≤ cfgA.l3.cosMax ∧ 4 ≤ cfgB.l2.cosMax := by decide

theorem witness_StepKeepsInvariants :
    (State.reset.withFetchWord 40 0xB807000000).Inv ∧ (∃ t, step (State.reset.withFetchWord 40 0xB807000000) = .next t) ∧
      (PlatformEvent.issue 0 .data 7).possible (State.reset.withFetchWord 40 0xB807000000) = true := by
  refine ⟨?_, ⟨_, rfl⟩, by decide⟩
  have hm : ∀ X d n, (State.reset.withFetchWord 40 0xB807000000).mask X d n = fullMask (Cfg.vectorsA.cache X).cbmLen := by
    intro X d n
    simp only [State.mask, State.withFetchWord, State.cache_loadOperation, State.reset, State.cache_resetWith]
    exact CacheState.mask_reset _ n
  have hl : ∀ p, ((State.reset.withFetchWord 40 0xB807000000).lp p).pqrCos = 0 ∧
      ((State.reset.withFetchWord 40 0xB807000000).lp p).pqrLow = 0 := by
    intro p
    simp only [State.withFetchWord, State.lp_loadOperation, State.me, State.reset, State.lp_resetWith]
    split <;> exact ⟨rfl, rfl⟩
  have hc : ∀ X d, (State.reset.withFetchWord 40 0xB807000000).cache X d = CacheState.reset (Cfg.vectorsA.cache X) := by
    intro X d; simp only [State.withFetchWord, State.cache_loadOperation, State.reset, State.cache_resetWith]
  refine ⟨fun X d n => ?_, fun X d n => ?_, fun p => ?_, fun p => ?_, fun d n => ?_, fun X d h => ?_, fun X d n h => ?_,
    fun r h => ?_⟩
  · rw [hm]; cases X <;> decide
  · rw [hm]; cases X <;> decide
  · rw [(hl p).1]; exact Nat.zero_le _
  · rw [(hl p).2]; rfl
  · simp only [State.withFetchWord, State.mbaThr_loadOperation, State.reset, State.mbaThr_resetWith]; exact Nat.zero_le _
  · rw [hc] at h; cases h
  · rw [hc] at h; cases h
  · cases h

theorem witness_UserLevelWritesNoMsr :
    (at0 cfgA 0xFF0 0xC90 0 3).me.cpl ≠ 0 ∧ ∃ t, exec .wrmsr (at0 cfgA 0xFF0 0xC90 0 3) = .next t := ⟨by decide, _, rfl⟩

theorem witness_StepKeepsConfiguration : ∃ t, step runCpuid = .next t := ⟨_, rfl⟩

/-- Two states that differ, in the hidden part alone. -/
theorem witness_HiddenStateIsNotObserved :
    runCpuid.eraseHidden = ((PlatformEvent.setOverride .l3 0 true).apply runCpuid).eraseHidden ∧
      runCpuid ≠ (PlatformEvent.setOverride .l3 0 true).apply runCpuid ∧
      runCpuid.eraseHidden = ((PlatformEvent.smi 1).apply ((PlatformEvent.issue 0 .data 7).apply runCpuid)).eraseHidden := by decide

/-- X11: a write on logical processor 0 and the mask that logical processor 1 sees. -/
theorem witness_OtherDomainsUntouched :
    (∃ t, exec .wrmsr (at0 cfgA2 0xFF0 0xC90 0) = .next t) ∧
      ∀ r', msrResolve (at0 cfgA2 0xFF0 0xC90 0).cfg (at0 cfgA2 0xFF0 0xC90 0).active r' ≠
        msrResolve (at0 cfgA2 0xFF0 0xC90 0).cfg 1 (.mask .l3 0) := by
  refine ⟨⟨_, rfl⟩, fun r' => ?_⟩
  cases r' with
  | pqrAssoc => simp [msrResolve]
  | qosCfg X => simp [msrResolve]
  | mbaThrottle n => simp [msrResolve]
  | mask X n =>
    cases X with
    | l3 => intro h; injection h with _ h; exact absurd h (by decide)
    | l2 => simp [msrResolve]

end Sys2Proof.Tests
end

section
/-! 00_scope.md R6: `COS_MAX_ALL` as a maximum. The list `cosMaxima` holds exactly the class numbers that the supported resources
report, and `cosMaxAll` is its `List.max?`, so the library's characterisation of `max?` gives both halves of the obligation. -/

namespace Sys2Proof.Machine

theorem cosMaxAll_eq_max?_getD (c : Cfg) : cosMaxAll c = (cosMaxima c).max?.getD Config.cosMaxNoResource := by
  unfold cosMaxAll
  cases cosMaxima c with
  | nil => rfl
  | cons m more => rw [List.max?_cons', Option.getD_some]

theorem mem_cosMaxima {c : Cfg} {m : Nat} :
    m ∈ cosMaxima c ↔
      (∃ X, (c.cache X).res = true ∧ m = (c.cache X).cosMax) ∨ (c.resMba = true ∧ m = c.mbaCosMax) := by
  have cache_iff : (∃ X, (c.cache X).res = true ∧ m = (c.cache X).cosMax) ↔
      (c.l3.res = true ∧ m = c.l3.cosMax) ∨ (c.l2.res = true ∧ m = c.l2.cosMax) := by
    constructor
    · rintro ⟨X, hX⟩
      cases X with
      | l3 => exact .inl hX
      | l2 => exact .inr hX
    · rintro (h3 | h2)
      · exact ⟨.l3, h3⟩
      · exact ⟨.l2, h2⟩
  rw [cache_iff]
  simp [cosMaxima, or_assoc]

/-- With a resource supported, the free value of log 12 plays no part. -/
theorem max?_cosMaxima_of_mem {c : Cfg} {m : Nat} (hm : m ∈ cosMaxima c) : (cosMaxima c).max? = some (cosMaxAll c) := by
  have hsome : (cosMaxima c).max?.isSome := List.isSome_max?_of_mem hm
  obtain ⟨k, hk⟩ := Option.isSome_iff_exists.mp hsome
  rw [cosMaxAll_eq_max?_getD, hk, Option.getD_some]

theorem le_cosMaxAll_of_mem {c : Cfg} {m : Nat} (hm : m ∈ cosMaxima c) : m ≤ cosMaxAll c :=
  (List.max?_eq_some_iff.mp (max?_cosMaxima_of_mem hm)).2 m hm

theorem cosMaxAll_mem_of_mem {c : Cfg} {m : Nat} (hm : m ∈ cosMaxima c) : cosMaxAll c ∈ cosMaxima c :=
  (List.max?_eq_some_iff.mp (max?_cosMaxima_of_mem hm)).1

/-- Settles O35: a supported resource's class number is a member of `cosMaxima`, and `cosMaxAll` is a member that bounds them all. -/
theorem cosMaxAllIsMaximum : Obligations.CosMaxAllIsMaximum := by
  unfold Obligations.CosMaxAllIsMaximum
  intro c
  have cache_mem : ∀ X, (c.cache X).res = true → (c.cache X).cosMax ∈ cosMaxima c :=
    fun X hX => mem_cosMaxima.mpr (.inl ⟨X, hX, rfl⟩)
  have mba_mem : c.resMba = true → c.mbaCosMax ∈ cosMaxima c :=
    fun hM => mem_cosMaxima.mpr (.inr ⟨hM, rfl⟩)
  refine ⟨fun X hX => le_cosMaxAll_of_mem (cache_mem X hX), fun hM => le_cosMaxAll_of_mem (mba_mem hM), ?_⟩
  rintro (h3 | h2 | hM)
  · exact mem_cosMaxima.mp (cosMaxAll_mem_of_mem (cache_mem .l3 h3))
  · exact mem_cosMaxima.mp (cosMaxAll_mem_of_mem (cache_mem .l2 h2))
  · exact mem_cosMaxima.mp (cosMaxAll_mem_of_mem (mba_mem hM))

end Sys2Proof.Machine
end

section
/-! 40_cpuid_enumeration.md R82: leaf 10H, sub-leaf 0. The table gives one output for this leaf; an output bit that the table
determines is the bit the configuration gives, whatever free word is drawn. -/

namespace Sys2Proof.Machine

@[simp] theorem getElem_bitAt (i j : Nat) (b : Bool) (hj : j < 32) : (bitAt i b)[j] = (b && decide (i = j)) := by
  cases b with
  | false => simp [bitAt]
  | true => simp [bitAt, eq_comm]

theorem PartialWord.getLsbD_fill_of_det {w : PartialWord} {i : Nat} (free : W32) (hdet : w.det.getLsbD i = true) :
    (w.fill free).getLsbD i = w.known.getLsbD i :=
  getLsbD_mixBits_det w.det w.known free i hdet

theorem cpuidTable_resources {c : Cfg} (hpqe : c.pqe = true) : cpuidTable c 0x10 0 = some (cpuidResources c) := by
  simp [cpuidTable, cpuidLeaf10, hpqe]

/-- The bits of EBX that R82 names, for any free word. -/
theorem cpuidResources_ebx_bits (c : Cfg) (free : W32) :
    ((cpuidResources c).ebx.fill free).getLsbD 1 = c.l3.res ∧ ((cpuidResources c).ebx.fill free).getLsbD 2 = c.l2.res ∧
      ((cpuidResources c).ebx.fill free).getLsbD 3 = c.resMba := by
  refine ⟨?_, ?_, ?_⟩
  all_goals
    rw [PartialWord.getLsbD_fill_of_det free (by simp [cpuidResources])]
    simp [cpuidResources]

/-- A leaf and sub-leaf the table describes: `CPUID` completes with that output. -/
theorem exec_cpuid_of_table {s : State} {o : CpuidOutput} (h : cpuidTable s.cfg s.me.eax s.me.ecx = some o) :
    exec .cpuid s = .next (s.putCpuid o).advance := by
  simp only [exec, execCpuid, h]

theorem State.putCpuid_advance_ebx (s : State) (o : CpuidOutput) :
    (s.putCpuid o).advance.me.ebx = o.ebx.fill (Config.cpuidFree (s.fresh + 1)) := by
  rw [State.me_advance, State.putCpuid_me]

/-- Settles O13: the table's output for leaf 10H, sub-leaf 0, determines EBX[3:1]. -/
theorem cpuidResourcesResult : Obligations.CpuidResourcesResult := by
  unfold Obligations.CpuidResourcesResult
  intro s heax hecx hpqe
  have htable : cpuidTable s.cfg s.me.eax s.me.ecx = some (cpuidResources s.cfg) := by
    rw [heax, hecx, cpuidTable_resources hpqe]
  obtain ⟨hl3, hl2, hmba⟩ := cpuidResources_ebx_bits s.cfg (Config.cpuidFree (s.fresh + 1))
  refine ⟨_, exec_cpuid_of_table htable, ?_, ?_, ?_, s.putCpuid_completed _⟩
  · rw [State.putCpuid_advance_ebx, hl3]
  · rw [State.putCpuid_advance_ebx, hl2]
  · rw [State.putCpuid_advance_ebx, hmba]

end Sys2Proof.Machine
end

section
/-! 42_cat.md R133, R135: the mask that governs a class in CAT-only mode, and overlap as a shared unit. Without an override, a request
may be filled into exactly the units of its effective mask, so that two requests of one cache share a unit exactly where their masks
share a 1 bit; the premise on the mask length makes that bit a unit. -/

namespace Sys2Proof.Machine

/-- Without CDP, or with CDP off, the kind of the request plays no part. -/
theorem governingMask_of_cdp_off {cc : CacheCfg} {cdpOn : Bool} (hres : cc.res = true) (hoff : cc.cdp = false ∨ cdpOn = false)
    (c : Nat) (kind : RequestKind) : governingMask cc cdpOn c kind = if c ≤ cc.cosMax then some c else none := by
  have hmode : (cc.cdp && cdpOn) = false := by
    rcases hoff with hcfg | hbit
    · rw [hcfg, Bool.false_and]
    · rw [hbit, Bool.and_false]
  simp [governingMask, hres, hmode]

/-- Settles O37: the governing mask is the one of the class's number, read in the processor's own domain. -/
theorem effMaskInCatOnlyMode : Obligations.EffMaskInCatOnlyMode := by
  unfold Obligations.EffMaskInCatOnlyMode
  intro s X p kind hres hoff
  rw [State.effMask, State.effMaskOf, governingMask_of_cdp_off hres hoff]
  split
  · rw [Option.map_some]
  · rw [Option.map_none]

theorem overlap_iff_exists_bit (a b : W32) : overlap a b = true ↔ ∃ i, a.getLsbD i = true ∧ b.getLsbD i = true := by
  have hzero : a &&& b = 0 ↔ ∀ i, (a &&& b).getLsbD i = false :=
    ⟨fun h i => by simp [h], fun h => BitVec.eq_of_getLsbD_eq fun i _ => by simpa using h i⟩
  rw [overlap, bne_iff_ne, ne_eq, hzero]
  simp

/-- A 1 bit of a mask inside the mask length is a unit of the cache. -/
theorem lt_of_getLsbD_of_toNat_lt {a : W32} {i len : Nat} (hlen : a.toNat < 2 ^ len) (hbit : a.getLsbD i = true) : i < len := by
  have hge : 2 ^ i ≤ a.toNat := Nat.ge_two_pow_of_testBit hbit
  exact (Nat.pow_lt_pow_iff_right (by decide)).mp (hge.trans_lt hlen)

/-- An unsettled cache counts as overridden. -/
theorem State.unsettled_eq_nil_of_not_overridden {s : State} {X : Level} {d : Nat} (h : s.overridden X d = false) :
    (s.cache X d).hidden.unsettled = [] := by
  simp only [State.overridden, Bool.or_eq_false_iff, Bool.not_eq_false', List.isEmpty_iff] at h
  obtain ⟨⟨_, hunsettled⟩, _⟩ := h
  exact hunsettled

/-- Without an override, a request filled in the state it is issued in goes to the units of its effective mask. -/
theorem State.mayFill_request_iff {s : State} {X : Level} {p : Nat} {kind : RequestKind} {m : W32}
    (hm : s.effMask X p kind = some m) (hfree : s.overridden X (s.cfg.dom X p) = false) (line i : Nat) :
    s.mayFill (s.request p kind line) X i = true ↔ i < (s.cfg.cache X).cbmLen ∧ m.getLsbD i = true := by
  have hconf : (s.request p kind line).confines X = some m := by
    rw [State.request_confines, State.maskInForce_eq_some]
    exact ⟨State.unsettled_eq_nil_of_not_overridden hfree, hm⟩
  simp [State.mayFill_iff, hconf, hfree]

/-- Settles O42: both requests are confined to their masks, and a shared 1 bit lies below the mask length because `a` does. -/
theorem overlapMeansSharedUnit : Obligations.OverlapMeansSharedUnit := by
  unfold Obligations.OverlapMeansSharedUnit
  refine ⟨overlap_iff_exists_bit, ?_⟩
  intro s X p q k l x y a b hdom ha hb hlen hfree
  have fill_p := State.mayFill_request_iff ha hfree x
  have fill_q := State.mayFill_request_iff hb (hdom ▸ hfree) y
  rw [overlap_iff_exists_bit]
  refine exists_congr fun i => ?_
  rw [fill_p, fill_q]
  constructor
  · rintro ⟨hai, hbi⟩
    have hi := lt_of_getLsbD_of_toNat_lt hlen hai
    exact ⟨⟨hi, hai⟩, hi, hbi⟩
  · rintro ⟨⟨_, hai⟩, _, hbi⟩
    exact ⟨hai, hbi⟩

end Sys2Proof.Machine
end

section
/-! 41_msr_access.md R100, 42_cat.md R129: `RDMSR` of an implemented register, and of IA32_PQR_ASSOC. -/

namespace Sys2Proof.Machine

/-- At privilege level 0, `RDMSR` of an implemented register completes with the register's content. -/
theorem exec_rdmsr_of_implemented {s : State} {r : Msr} (hcpl : s.me.cpl = 0)
    (hlook : msrLookup s.cfg s.me.ecx = .implemented r) :
    exec .rdmsr s = .next (s.putMsrResult (s.msrRead s.active r)).advance := by
  have hpriv := s.privileged_iff.mpr hcpl
  simp [exec, execRdmsr, State.msrAddress, hpriv, hlook]

theorem State.putMsrResult_advance_me (s : State) (v : W64) :
    (s.putMsrResult v).advance.me = { s.me with edx := hiWord v, eax := loWord v, pc := s.me.pc + 1 } := by
  rw [State.me_advance, State.putMsrResult_me]

theorem msrLookup_pqrAssoc {c : Cfg} (hpqe : c.pqe = true) : msrLookup c 0xC8F = .implemented .pqrAssoc := by
  simp [msrLookup, msrAt, msrImplemented, hpqe]

theorem State.msrRead_pqrAssoc (s : State) (p : Nat) : s.msrRead p .pqrAssoc = (s.lp p).pqrCos ++ (s.lp p).pqrLow := rfl

/-- Settles O20: the register is implemented with PQE, and its content is the class above the low half. -/
theorem rdmsrPqrValue : Obligations.RdmsrPqrValue := by
  unfold Obligations.RdmsrPqrValue
  intro s hcpl hpqe hecx
  have hlook : msrLookup s.cfg s.me.ecx = .implemented .pqrAssoc := by rw [hecx, msrLookup_pqrAssoc hpqe]
  have hme := s.putMsrResult_advance_me (s.msrRead s.active .pqrAssoc)
  rw [State.msrRead_pqrAssoc, hiWord_append, loWord_append] at hme
  refine ⟨_, exec_rdmsr_of_implemented hcpl hlook, ?_, ?_, fun hreset => ?_, ?_, ?_, s.putMsrResult_completed _⟩
  · rw [State.msrRead_pqrAssoc, hme]; rfl
  · rw [State.msrRead_pqrAssoc, hme]; rfl
  · rw [State.msrRead_pqrAssoc, hme]; exact hreset
  · rw [State.putMsrResult_advance_me]
  · rw [State.putMsrResult_advance_me]

end Sys2Proof.Machine
end

section
/-! 43_cdp.md R153, R155: the pair of mask registers of a class under CDP. Class `n` owns mask registers `2n` and `2n + 1`; both are
looked up through the block of mask addresses of their cache, and a class has a governing mask only where the whole pair exists. -/

namespace Sys2Proof.Machine

theorem dataMaskIndex_eq_two_mul (c : Nat) : dataMaskIndex c = 2 * c := by
  rw [dataMaskIndex, Nat.shiftLeft_eq, pow_one, mul_comm]

theorem codeMaskIndex_eq_two_mul_add_one (c : Nat) : codeMaskIndex c = 2 * c + 1 :=
  congrArg (· + 1) (dataMaskIndex_eq_two_mul c)

theorem dataMaskAddress_eq_base_add_index (X : Level) (n : Nat) : dataMaskAddress X n = maskBase X + dataMaskIndex n := rfl

theorem codeMaskAddress_eq_base_add_index (X : Level) (n : Nat) : codeMaskAddress X n = maskBase X + codeMaskIndex n := rfl

theorem msrAt_of_mem_l3_block {a : W32} (hlo : 0xC90 ≤ a.toNat) (hhi : a.toNat ≤ 0xD0F) :
    msrAt a = some (.mask .l3 (a.toNat - 0xC90)) := by
  have hpqr : a.toNat ≠ 0xC8F := by omega
  have hqos3 : a.toNat ≠ 0xC81 := by omega
  have hqos2 : a.toNat ≠ 0xC82 := by omega
  simp only [msrAt, hpqr, hqos3, hqos2, hlo, hhi, and_self, if_true, if_false]

theorem msrAt_of_mem_l2_block {a : W32} (hlo : 0xD10 ≤ a.toNat) (hhi : a.toNat ≤ 0xD4F) :
    msrAt a = some (.mask .l2 (a.toNat - 0xD10)) := by
  have hpqr : a.toNat ≠ 0xC8F := by omega
  have hqos3 : a.toNat ≠ 0xC81 := by omega
  have hqos2 : a.toNat ≠ 0xC82 := by omega
  have hl3 : ¬ (0xC90 ≤ a.toNat ∧ a.toNat ≤ 0xD0F) := by omega
  simp only [msrAt, hpqr, hqos3, hqos2, hl3, hlo, hhi, and_self, if_true, if_false]

theorem toNat_ofNat_maskBase_add (X : Level) {i : Nat} (hi : i < 128) :
    (BitVec.ofNat 32 (maskBase X + i)).toNat = maskBase X + i := by
  have hbase : maskBase X ≤ 0xD10 := by cases X <;> decide
  rw [BitVec.toNat_ofNat, Nat.mod_eq_of_lt (by omega)]

/-- The blocks hold 128 masks for L3 and 64 for L2 (30_encoding.md R65). -/
theorem msrAt_maskBase_add {X : Level} {i : Nat} (hl3 : X = .l3 → i < 128) (hl2 : X = .l2 → i < 64) :
    msrAt (BitVec.ofNat 32 (maskBase X + i)) = some (.mask X i) := by
  cases X with
  | l3 =>
    have hi := hl3 rfl
    have haddr : (BitVec.ofNat 32 (maskBase .l3 + i)).toNat = 0xC90 + i := toNat_ofNat_maskBase_add .l3 hi
    rw [msrAt_of_mem_l3_block (by omega) (by omega), haddr, Nat.add_sub_cancel_left]
  | l2 =>
    have hi := hl2 rfl
    have haddr : (BitVec.ofNat 32 (maskBase .l2 + i)).toNat = 0xD10 + i := toNat_ofNat_maskBase_add .l2 (by omega)
    rw [msrAt_of_mem_l2_block (by omega) (by omega), haddr, Nat.add_sub_cancel_left]

/-- Settles O27: an address is the base plus an index, and both indices of a class's pair lie in the block. -/
theorem maskAddressesUnderCdp : Obligations.MaskAddressesUnderCdp := by
  unfold Obligations.MaskAddressesUnderCdp
  refine ⟨fun X n hl3 hl2 => ?_, by decide⟩
  have hdata := dataMaskIndex_eq_two_mul n
  have hcode := codeMaskIndex_eq_two_mul_add_one n
  rw [dataMaskAddress_eq_base_add_index, codeMaskAddress_eq_base_add_index, hdata, hcode]
  refine ⟨rfl, rfl, msrAt_maskBase_add (fun h => ?_) (fun h => ?_), msrAt_maskBase_add (fun h => ?_) (fun h => ?_), rfl, rfl⟩
  · have := hl3 h; omega
  · have := hl2 h; omega
  · have := hl3 h; omega
  · have := hl2 h; omega

theorem governingMask_of_cdp_pair {cc : CacheCfg} {c : Nat} (hres : cc.res = true) (hcdp : cc.cdp = true)
    (hpair : 2 * c + 1 ≤ cc.cosMax) :
    governingMask cc true c .data = some (2 * c) ∧ governingMask cc true c .code = some (2 * c + 1) := by
  simp [governingMask, hres, hcdp, codeMaskIndex_eq_two_mul_add_one, dataMaskIndex_eq_two_mul, hpair]

theorem governingMask_of_no_cdp_pair {cc : CacheCfg} {c : Nat} (hres : cc.res = true) (hcdp : cc.cdp = true)
    (hpair : ¬ 2 * c + 1 ≤ cc.cosMax) (kind : RequestKind) : governingMask cc true c kind = none := by
  simp [governingMask, hres, hcdp, codeMaskIndex_eq_two_mul_add_one, hpair]

/-- Settles O38: the effective mask is the governing one, read in the processor's own domain. -/
theorem effMaskUnderCdp : Obligations.EffMaskUnderCdp := by
  unfold Obligations.EffMaskUnderCdp
  intro s X p hres hcdp hon
  simp only [State.effMask, State.effMaskOf, hon]
  split
  next hpair =>
    obtain ⟨hdata, hcode⟩ := governingMask_of_cdp_pair hres hcdp hpair
    rw [hdata, hcode, Option.map_some, Option.map_some]
    exact ⟨rfl, rfl⟩
  next hpair =>
    intro kind
    rw [governingMask_of_no_cdp_pair hres hcdp hpair kind, Option.map_none]

end Sys2Proof.Machine
end

section
/-! 70_reset_and_hazards.md R220, R221, R224: CDP and class right after reset. A list of the reset state holds one copy per cache
or processor of the configuration, and an index outside it reads as the same reset value, so no bound on the index is needed. -/

namespace Sys2Proof.Machine

@[simp] theorem CacheState.reset_cdp (c : CacheCfg) : (CacheState.reset c).cdp = false := rfl

@[simp] theorem LpState.reset_pqrCos : LpState.reset.pqrCos = 0 := rfl

/-- One fact for both levels: a cache of either level resets through `CacheState.reset`. -/
theorem State.cdp_cache_resetWith (c : Cfg) (X : Level) (d : Nat) : ((State.resetWith c).cache X d).cdp = false := by
  rw [State.cache_resetWith, CacheState.reset_cdp]

theorem State.pqrCos_lp_resetWith (c : Cfg) (p : Nat) : ((State.resetWith c).lp p).pqrCos = 0 := by
  rw [State.lp_resetWith, LpState.reset_pqrCos]

/-- Settles O52: every cache, of L3 and of L2, reads as `CacheState.reset` and every processor as `LpState.reset`. -/
theorem resetValuesOfTheSpec : Obligations.ResetValuesOfTheSpec := by
  unfold Obligations.ResetValuesOfTheSpec
  intro c
  exact ⟨State.cdp_cache_resetWith c .l3, State.cdp_cache_resetWith c .l2, State.pqrCos_lp_resetWith c⟩

end Sys2Proof.Machine
end

section
/-! 30_encoding.md R60, R61, 92_eei_decisions.md D3: decoder and encoder. Each part of the decoder (the second byte, the register field,
the four immediate bytes) has its own inverse, and the decoder answers an operation exactly where the encoder gives those bytes. -/

namespace Sys2Proof

/-! The register field -/

@[simp] theorem Reg.ofNumber_number (r : Reg) : Reg.ofNumber r.number = r := by cases r <;> rfl

@[simp] theorem Reg.number_ofNumber : ∀ n : BitVec 2, (Reg.ofNumber n).number = n := by decide

/-! The immediate -/

theorem immOfBytes_of_extract (v : W32) :
    immOfBytes (v.extractLsb' 0 8) (v.extractLsb' 8 8) (v.extractLsb' 16 8) (v.extractLsb' 24 8) = v := by
  rw [immOfBytes, BitVec.extractLsb'_append_extractLsb'_eq_extractLsb' (start₁ := 16) (len₁ := 8) rfl,
    BitVec.extractLsb'_append_extractLsb'_eq_extractLsb' (start₁ := 8) (len₁ := 8) rfl,
    BitVec.extractLsb'_append_extractLsb'_eq_extractLsb' (start₁ := 0) (len₁ := 8) rfl]
  exact BitVec.extractLsb'_eq_self

theorem bytesOfImm_immOfBytes (i0 i1 i2 i3 : Byte) : bytesOfImm (immOfBytes i0 i1 i2 i3) = [i0, i1, i2, i3] := by
  simp only [bytesOfImm, immOfBytes, List.cons.injEq, and_true]
  refine ⟨?_, ?_, ?_, ?_⟩
  all_goals
    apply BitVec.eq_of_getLsbD_eq
    intro j hj
    simp only [BitVec.getLsbD_extractLsb', BitVec.getLsbD_append]
    grind

theorem decodeLoad_bytesOfImm (r : Reg) (v : W32) : decodeLoad r (bytesOfImm v) = .instr (.load r v) := by
  rw [bytesOfImm, decodeLoad, immOfBytes_of_extract]

/-- The immediate bytes of a `LOAD` are four, and they are those of its constant. -/
theorem decodeLoad_eq_instr {r : Reg} {bytes : List Byte} {i : Instr} (h : decodeLoad r bytes = .instr i) :
    ∃ v, i = .load r v ∧ bytes = bytesOfImm v := by
  unfold decodeLoad at h
  split at h
  next i0 i1 i2 i3 =>
    cases h
    exact ⟨_, rfl, (bytesOfImm_immOfBytes i0 i1 i2 i3).symm⟩
  next => cases h
  next => cases h

/-! The first and the second byte -/

/-- The first byte of a `LOAD`: B8H plus the number of its register. -/
def loadOpcode (n : BitVec 2) : Byte := 0b101110#6 ++ n

theorem encode_load (r : Reg) (v : W32) : encode (.load r v) = loadOpcode r.number :: bytesOfImm v := rfl

theorem loadOpcode_fields : ∀ n : BitVec 2,
    loadOpcode n ≠ 0x0F ∧ (loadOpcode n).extractLsb' 2 6 = 0b101110#6 ∧ (loadOpcode n).extractLsb' 0 2 = n := by
  decide

theorem loadOpcode_eq_add : ∀ n : BitVec 2, loadOpcode n = BitVec.ofNat 8 (0xB8 + n.toNat) := by decide

/-- A byte whose upper field announces a `LOAD` is the opcode of its lower field. -/
theorem eq_loadOpcode {b : Byte} (h : b.extractLsb' 2 6 = 0b101110#6) : b = loadOpcode (b.extractLsb' 0 2) := by
  rw [loadOpcode, ← h, BitVec.extractLsb'_append_extractLsb'_eq_extractLsb' (start₁ := 0) (len₁ := 2) rfl]
  exact BitVec.extractLsb'_eq_self.symm

theorem decode_loadOpcode_cons (n : BitVec 2) (more : List Byte) :
    decode (loadOpcode n :: more) = decodeLoad (Reg.ofNumber n) more := by
  obtain ⟨hne, hhigh, hlow⟩ := loadOpcode_fields n
  rw [decode, if_neg hne, if_pos hhigh, hlow]

theorem decodeTwoByte_eq_instr {bytes : List Byte} {i : Instr} (h : decodeTwoByte bytes = .instr i) :
    encode i = 0x0F :: bytes := by
  unfold decodeTwoByte at h
  split at h
  next => cases h
  next b more =>
    split_ifs at h with hb hm hb hm hb hm
    all_goals
      cases h
      rw [hb, hm]
      rfl

theorem decode_encode (i : Instr) : decode (encode i) = .instr i := by
  cases i with
  | cpuid => rfl
  | rdmsr => rfl
  | wrmsr => rfl
  | load r v => rw [encode_load, decode_loadOpcode_cons, Reg.ofNumber_number, decodeLoad_bytesOfImm]

theorem encode_of_decode {bytes : List Byte} {i : Instr} (h : decode bytes = .instr i) : encode i = bytes := by
  unfold decode at h
  split at h
  next => cases h
  next b more =>
    split_ifs at h with htwo hload
    · rw [htwo, decodeTwoByte_eq_instr h]
    · obtain ⟨v, rfl, rfl⟩ := decodeLoad_eq_instr h
      rw [encode_load, Reg.number_ofNumber, ← eq_loadOpcode hload]

/-- Settles O2, by cases on the operation: the three fixed words compute, and a `LOAD` inverts its register field and its bytes. -/
theorem decodeOfEncode : Obligations.DecodeOfEncode := decode_encode

/-- Settles O3: the decoder answers only encodings, and it answers each of them. -/
theorem encodeOfDecode : Obligations.EncodeOfDecode := by
  unfold Obligations.EncodeOfDecode
  intro bytes i
  constructor
  · exact encode_of_decode
  · rintro rfl
    exact decode_encode i

/-- Settles O1: closed words, evaluated. -/
theorem specBytesDecode : Obligations.SpecBytesDecode := by
  unfold Obligations.SpecBytesDecode
  decide

end Sys2Proof

namespace Sys2Proof.Machine

/-- Settles O10: the frame of `LOAD`, and its bytes as the opcode of its register followed by the constant. -/
theorem loadResult : Obligations.LoadResult := by
  unfold Obligations.LoadResult
  refine ⟨fun s r v => ⟨(s.setReg r v).advance, rfl, ?_, fun q hq => ?_, rfl, s.setReg_completed r v⟩,
    fun r i0 i1 i2 i3 => ?_, rfl, rfl, rfl, rfl, by decide⟩
  · have hreg := s.me.reg_setReg r r v
    rw [if_pos rfl] at hreg
    rw [State.me_advance, State.setReg_me]
    cases r <;> exact hreg
  · have hreg := s.me.reg_setReg r q v
    rw [if_neg hq] at hreg
    rw [State.me_advance, State.setReg_me]
    cases q <;> exact hreg
  · rw [← loadOpcode_eq_add, decode_loadOpcode_cons, Reg.ofNumber_number, decodeLoad, immOfBytes]

end Sys2Proof.Machine
end

section
/-! 41_msr_access.md R105: which values may be written, one equivalence for each kind of register, in terms of the number written. -/

namespace Sys2Proof.Machine

theorem toNat_zero_word : (0 : W32).toNat = 0 := rfl

theorem toNat_hiWord (v : W64) : (hiWord v).toNat = v.toNat / 2 ^ 32 := by
  have hv := v.isLt
  rw [hiWord, BitVec.extractLsb'_toNat, Nat.shiftRight_eq_div_pow]
  omega

theorem toNat_loWord (v : W64) : (loWord v).toNat = v.toNat % 2 ^ 32 := by
  rw [loWord, BitVec.extractLsb'_toNat, Nat.shiftRight_zero]

/-- EDX:EAX as a number (30_encoding.md R62). -/
theorem toNat_append_words (hi lo : W32) : (hi ++ lo : W64).toNat = hi.toNat * 2 ^ 32 + lo.toNat := by
  have hsplit := Nat.div_add_mod (hi ++ lo : W64).toNat (2 ^ 32)
  rw [← toNat_hiWord, ← toNat_loWord, hiWord_append, loWord_append] at hsplit
  omega

theorem toNat_loWord_of_lt {v : W64} {len : Nat} (hlen : len ≤ 32) (hv : v.toNat < 2 ^ len) : (loWord v).toNat = v.toNat := by
  have hpow : 2 ^ len ≤ 2 ^ 32 := Nat.pow_le_pow_right (by decide) hlen
  rw [toNat_loWord, Nat.mod_eq_of_lt (hv.trans_le hpow)]

theorem writeValid_pqrAssoc_iff (c : Cfg) (v : W64) : writeValid c .pqrAssoc v = true ↔
    (hiWord v).toNat ≤ cosMaxAll c ∧ pqrLowValid c (loWord v) = true := by
  rw [writeValid, Bool.and_eq_true, decide_eq_true_iff]

theorem writeValid_qosCfg_iff (c : Cfg) (X : Level) (v : W64) : writeValid c (.qosCfg X) v = true ↔ v.toNat < 2 := by
  rw [writeValid, beq_iff_eq, shiftRight_eq_zero_iff, pow_one]

theorem writeValid_mask_iff (c : Cfg) (X : Level) (n : Nat) (v : W64) : writeValid c (.mask X n) v = true ↔
    v.toNat < 2 ^ (c.cache X).cbmLen ∧ contig v.toNat = true := by
  rw [writeValid, Bool.and_eq_true, beq_iff_eq, shiftRight_eq_zero_iff]

theorem writeValid_mbaThrottle_iff (c : Cfg) (n : Nat) (v : W64) : writeValid c (.mbaThrottle n) v = true ↔
    v.toNat < 65536 ∧ v.toNat ≤ c.mbaMax := by
  rw [writeValid, Bool.and_eq_true, beq_iff_eq, shiftRight_eq_zero_iff, decide_eq_true_iff, BitVec.toNat_setWidth]
  refine and_congr_right fun hv => ?_
  rw [Nat.mod_eq_of_lt hv]

/-- A run of `k` ones from bit `lo` on stays below bit `len` exactly when it ends there. -/
theorem run_lt_two_pow_iff {lo k len : Nat} (hk : 1 ≤ k) : (2 ^ k - 1) * 2 ^ lo < 2 ^ len ↔ lo + k ≤ len := by
  constructor
  · intro hlt
    have htop : 2 ^ (k - 1) ≤ 2 ^ k - 1 := by
      have hdouble : 2 ^ k = 2 ^ (k - 1) * 2 := by rw [← pow_succ, Nat.sub_add_cancel hk]
      have hpos : 0 < 2 ^ (k - 1) := by positivity
      omega
    have hbit : 2 ^ (k - 1 + lo) < 2 ^ len := by
      calc 2 ^ (k - 1 + lo) = 2 ^ (k - 1) * 2 ^ lo := pow_add _ _ _
        _ ≤ (2 ^ k - 1) * 2 ^ lo := Nat.mul_le_mul_right _ htop
        _ < 2 ^ len := hlt
    have := (Nat.pow_lt_pow_iff_right (by decide)).mp hbit
    omega
  · intro hle
    have hpos : 0 < 2 ^ k := by positivity
    calc (2 ^ k - 1) * 2 ^ lo < 2 ^ k * 2 ^ lo := Nat.mul_lt_mul_of_pos_right (by omega) (by positivity)
      _ = 2 ^ (lo + k) := by rw [← pow_add, Nat.add_comm]
      _ ≤ 2 ^ len := Nat.pow_le_pow_right (by decide) hle

/-- Settles O30: `contig` names the run, and the reserved bits bound its end. -/
theorem legalMaskValues : Obligations.LegalMaskValues := by
  unfold Obligations.LegalMaskValues
  intro c X n v
  rw [writeValid_mask_iff, contig_iff]
  constructor
  · rintro ⟨hlt, lo, k, hk, hrun⟩
    rw [hrun, run_lt_two_pow_iff hk] at hlt
    exact ⟨lo, k, hk, hlt, hrun⟩
  · rintro ⟨lo, k, hk, hle, hrun⟩
    refine ⟨?_, lo, k, hk, hrun⟩
    rw [hrun, run_lt_two_pow_iff hk]
    exact hle

end Sys2Proof.Machine
end

section
/-! What a write to each kind of register changes, and what it leaves (42_cat.md R121, R128; 43_cdp.md R151, R162; 44_mba.md R173). For each
accessor: one lemma for the register that holds it, and one for all others. -/

namespace Sys2Proof.Machine

@[simp] theorem State.mask_setLp (s : State) (p : Nat) (x : LpState) (X : Level) (d n : Nat) :
    (s.setLp p x).mask X d n = s.mask X d n := by rw [State.mask, State.cache_setLp, State.setLp_cfg, State.mask]

@[simp] theorem State.mask_setMbaThr (s : State) (d e n m : Nat) (v : W16) (X : Level) :
    (s.setMbaThr d n v).mask X e m = s.mask X e m := by
  rw [State.mask, State.cache_setMbaThr, State.setMbaThr_cfg, State.mask]

@[simp] theorem State.mask_advance (s : State) (X : Level) (d n : Nat) : s.advance.mask X d n = s.mask X d n :=
  s.mask_setMe _ _ _ _

@[simp] theorem State.pqrCos_lp_advance (s : State) (q : Nat) : (s.advance.lp q).pqrCos = (s.lp q).pqrCos := by
  rw [State.lp_advance]
  split
  next hq => rw [hq]; rfl
  next => rfl

@[simp] theorem State.pqrLow_lp_advance (s : State) (q : Nat) : (s.advance.lp q).pqrLow = (s.lp q).pqrLow := by
  rw [State.lp_advance]
  split
  next hq => rw [hq]; rfl
  next => rfl

section
variable (s : State) (p : Nat) (v : W64)

@[simp] theorem State.msrWrite_cfg (r : Msr) : (s.msrWrite p r v).cfg = s.cfg := (s.msrWrite_frame p r v).1

@[simp] theorem State.msrWrite_active (r : Msr) : (s.msrWrite p r v).active = s.active := (s.msrWrite_frame p r v).2.1

@[simp] theorem State.msrWrite_requests (r : Msr) : (s.msrWrite p r v).requests = s.requests := by
  cases r <;> simp [State.msrWrite, msrResolve, State.writeCell]

/-! Classes and low halves -/

theorem State.lp_msrWrite_pqrAssoc (q : Nat) : (s.msrWrite p .pqrAssoc v).lp q =
    if q = p then { s.lp p with pqrCos := hiWord v, pqrLow := loWord v } else s.lp q := s.lp_setLp _ _ _

theorem State.lp_msrWrite_of_ne {r : Msr} (hr : r ≠ .pqrAssoc) (q : Nat) : (s.msrWrite p r v).lp q = s.lp q := by
  cases r with
  | pqrAssoc => exact absurd rfl hr
  | qosCfg X => exact s.lp_setCache _ _ _ _
  | mask X n => exact s.lp_setCache _ _ _ _
  | mbaThrottle n => exact s.lp_setMbaThr _ _ _ _

/-! Caches -/

theorem State.cache_msrWrite_qosCfg (X Y : Level) (d : Nat) : (s.msrWrite p (.qosCfg X) v).cache Y d =
    if Y = X ∧ d = s.cfg.dom X p then (s.cache X (s.cfg.dom X p)).writeCdp (s.cfg.cache X) (v.getLsbD 0)
    else s.cache Y d := s.cache_setCache _ _ _ _ _

theorem State.cache_msrWrite_mask (X Y : Level) (n d : Nat) : (s.msrWrite p (.mask X n) v).cache Y d =
    if Y = X ∧ d = s.cfg.dom X p then
      (s.cache X (s.cfg.dom X p)).writeMask (s.cfg.cache X) n (lowBits (s.cfg.cache X).cbmLen v)
    else s.cache Y d := s.cache_setCache _ _ _ _ _

theorem State.cache_msrWrite_of_ne {r : Msr} (hqos : ∀ X, r ≠ .qosCfg X) (hmask : ∀ X n, r ≠ .mask X n) (Y : Level) (d : Nat) :
    (s.msrWrite p r v).cache Y d = s.cache Y d := by
  cases r with
  | pqrAssoc => exact s.cache_setLp _ _ _ _
  | qosCfg X => exact absurd rfl (hqos X)
  | mask X n => exact absurd rfl (hmask X n)
  | mbaThrottle n => exact s.cache_setMbaThr _ _ _ _ _

theorem State.cdp_msrWrite_qosCfg (X Y : Level) (d : Nat) : ((s.msrWrite p (.qosCfg X) v).cache Y d).cdp =
    if Y = X ∧ d = s.cfg.dom X p then v.getLsbD 0 else (s.cache Y d).cdp := by
  rw [State.cache_msrWrite_qosCfg, apply_ite CacheState.cdp, CacheState.writeCdp_cdp]

theorem State.cdp_msrWrite_of_ne {r : Msr} (hr : ∀ X, r ≠ .qosCfg X) (Y : Level) (d : Nat) :
    ((s.msrWrite p r v).cache Y d).cdp = (s.cache Y d).cdp := by
  cases r with
  | qosCfg X => exact absurd rfl (hr X)
  | mask X n =>
    rw [State.cache_msrWrite_mask]
    split
    next h => rw [CacheState.writeMask_cdp, h.1, h.2]
    next => rfl
  | pqrAssoc => rw [State.cache_msrWrite_of_ne _ _ _ (by simp) (by simp)]
  | mbaThrottle n => rw [State.cache_msrWrite_of_ne _ _ _ (by simp) (by simp)]

/-- Only a write to a mask register changes a mask; `State.mask_msrWrite_mask` says how. -/
theorem State.mask_msrWrite_of_ne {r : Msr} (hr : ∀ X n, r ≠ .mask X n) (Y : Level) (d m : Nat) :
    (s.msrWrite p r v).mask Y d m = s.mask Y d m := by
  cases r with
  | mask X n => exact absurd rfl (hr X n)
  | qosCfg X =>
    rw [State.mask, State.cache_msrWrite_qosCfg, State.msrWrite_cfg]
    split
    next h =>
      obtain ⟨rfl, rfl⟩ := h
      exact CacheState.mask_writeCdp _ _ _ _
    next => rfl
  | pqrAssoc => exact s.mask_setLp _ _ _ _ _
  | mbaThrottle n => exact s.mask_setMbaThr _ _ _ _ _ _

/-! Delays -/

theorem State.mbaThr_msrWrite_mbaThrottle (n d m : Nat) : (s.msrWrite p (.mbaThrottle n) v).mbaThr d m =
    if d = mbaDom s.cfg p ∧ m = n then mbaStored s.cfg (v.setWidth 16) else s.mbaThr d m := s.mbaThr_setMbaThr _ _ _ _ _

theorem State.mbaThr_msrWrite_of_ne {r : Msr} (hr : ∀ n, r ≠ .mbaThrottle n) (d m : Nat) :
    (s.msrWrite p r v).mbaThr d m = s.mbaThr d m := by
  cases r with
  | mbaThrottle n => exact absurd rfl (hr n)
  | pqrAssoc => exact s.mbaThr_setLp _ _ _ _
  | qosCfg X => exact s.mbaThr_setCache _ _ _ _ _
  | mask X n => exact s.mbaThr_setCache _ _ _ _ _

/-! What stays whatever the register is -/

/-- A register write moves no line and changes no override (20_memory.md R57, 60_exceptions.md R207). -/
theorem State.lines_override_msrWrite (r : Msr) (Y : Level) (d : Nat) :
    ((s.msrWrite p r v).cache Y d).hidden.lines = (s.cache Y d).hidden.lines ∧
      ((s.msrWrite p r v).cache Y d).hidden.override = (s.cache Y d).hidden.override := by
  cases r with
  | pqrAssoc => rw [State.cache_msrWrite_of_ne _ _ _ (by simp) (by simp)]; exact ⟨rfl, rfl⟩
  | qosCfg X =>
    rw [State.cache_msrWrite_qosCfg]
    split
    next h => rw [CacheState.writeCdp_lines, CacheState.writeCdp_override, h.1, h.2]; exact ⟨rfl, rfl⟩
    next => exact ⟨rfl, rfl⟩
  | mask X n =>
    rw [State.cache_msrWrite_mask]
    split
    next h => rw [CacheState.writeMask_lines, CacheState.writeMask_override, h.1, h.2]; exact ⟨rfl, rfl⟩
    next => exact ⟨rfl, rfl⟩
  | mbaThrottle n => rw [State.cache_msrWrite_of_ne _ _ _ (by simp) (by simp)]; exact ⟨rfl, rfl⟩

/-- A register write leaves of every logical processor all but its class and low half. -/
theorem State.lp_msrWrite_regs (r : Msr) (q : Nat) :
    (∀ g, ((s.msrWrite p r v).lp q).reg g = (s.lp q).reg g) ∧ ((s.msrWrite p r v).lp q).pc = (s.lp q).pc ∧
      ((s.msrWrite p r v).lp q).cpl = (s.lp q).cpl ∧ ((s.msrWrite p r v).lp q).fault = (s.lp q).fault ∧
      ((s.msrWrite p r v).lp q).prog = (s.lp q).prog := by
  by_cases hr : r = .pqrAssoc
  · subst hr
    rw [State.lp_msrWrite_pqrAssoc]
    split
    next hq =>
      subst hq
      exact ⟨fun g => by cases g <;> rfl, rfl, rfl, rfl, rfl⟩
    next => exact ⟨fun g => rfl, rfl, rfl, rfl, rfl⟩
  · rw [State.lp_msrWrite_of_ne _ _ _ hr]
    exact ⟨fun g => rfl, rfl, rfl, rfl, rfl⟩

end

end Sys2Proof.Machine
end

section
/-! 41_msr_access.md R104, 20_memory.md R43, R44: the look-up of an address. `msrAt` is the address map read backwards;
`Msr.hasAddress` is the same map read forwards, register by register, and `MsrExists` is the part of it that the configuration
implements. -/

namespace Sys2Proof.Machine

/-- The number of mask registers a block of addresses has room for (30_encoding.md R65). -/
def maskBlockSize : Level → Nat
  | .l3 => 128
  | .l2 => 64

/-- The address of each register, where it has one. -/
def Msr.hasAddress : Msr → Nat → Prop
  | .pqrAssoc, a => a = 0xC8F
  | .qosCfg X, a => a = (qosCfgAddress X).toNat
  | .mask X n, a => n < maskBlockSize X ∧ a = maskBase X + n
  | .mbaThrottle n, a => n ≤ 65535 ∧ a = 0xD50 + n

theorem hasAddress_of_msrAt {a : W32} {r : Msr} (h : msrAt a = some r) : r.hasAddress a.toNat := by
  simp only [msrAt] at h
  split_ifs at h with hpqr hqos3 hqos2 hmask3 hmask2 hmba
  · cases h; exact hpqr
  · cases h; exact hqos3
  · cases h; exact hqos2
  · cases h; simp only [Msr.hasAddress, maskBlockSize, maskBase]; omega
  · cases h; simp only [Msr.hasAddress, maskBlockSize, maskBase]; omega
  · cases h; simp only [Msr.hasAddress]; omega

theorem msrAt_of_hasAddress {a : W32} {r : Msr} (h : r.hasAddress a.toNat) : msrAt a = some r := by
  cases r with
  | pqrAssoc => exact if_pos h
  | qosCfg X =>
    cases X with
    | l3 => simp [msrAt, show a.toNat = 0xC81 from h]
    | l2 => simp [msrAt, show a.toNat = 0xC82 from h]
  | mask X n =>
    obtain ⟨hn, ha⟩ := h
    cases X with
    | l3 =>
      simp only [maskBlockSize, maskBase] at hn ha
      rw [msrAt_of_mem_l3_block (by omega) (by omega), ha, Nat.add_sub_cancel_left]
    | l2 =>
      simp only [maskBlockSize, maskBase] at hn ha
      rw [msrAt_of_mem_l2_block (by omega) (by omega), ha, Nat.add_sub_cancel_left]
  | mbaThrottle n =>
    obtain ⟨hn, ha⟩ := h
    have hother : ¬ (0xD50 + n = 0xC8F) ∧ ¬ (0xD50 + n = 0xC81) ∧ ¬ (0xD50 + n = 0xC82) ∧ ¬ (0xD50 + n ≤ 0xD0F) ∧
        ¬ (0xD50 + n ≤ 0xD4F) := by omega
    have hend : 0xD50 + n ≤ 0xD50 + 65535 := by omega
    obtain ⟨hpqr, hqos3, hqos2, hmask3, hmask2⟩ := hother
    simpa [msrAt, ha, hpqr, hqos3, hqos2, hmask3, hmask2] using hend

/-- The two readings of the address map agree. -/
theorem msrAt_eq_some_iff (a : W32) (r : Msr) : msrAt a = some r ↔ r.hasAddress a.toNat :=
  ⟨hasAddress_of_msrAt, msrAt_of_hasAddress⟩

theorem isRdtAddress_iff (a : W32) : isRdtAddress a = true ↔ rdtAddress a.toNat := by
  simp [isRdtAddress, rdtAddress, ← BitVec.toNat_inj, or_assoc]

/-- The hierarchy has no gap: every address of it is one of a register, implemented or not. -/
theorem exists_msrAt_of_rdtAddress {a : W32} (h : rdtAddress a.toNat) : ∃ r, msrAt a = some r := by
  simp only [msrAt_eq_some_iff]
  have hblocks : a.toNat = 0xC81 ∨ a.toNat = 0xC82 ∨ a.toNat = 0xC8F ∨ (0xC90 ≤ a.toNat ∧ a.toNat ≤ 0xD0F) ∨
      (0xD10 ≤ a.toNat ∧ a.toNat ≤ 0xD4F) ∨ (0xD50 ≤ a.toNat ∧ a.toNat ≤ 0xD8F) := by
    unfold rdtAddress at h
    omega
  rcases hblocks with h3 | h2 | hpqr | hm3 | hm2 | hmba
  · exact ⟨.qosCfg .l3, h3⟩
  · exact ⟨.qosCfg .l2, h2⟩
  · exact ⟨.pqrAssoc, hpqr⟩
  · exact ⟨.mask .l3 (a.toNat - 0xC90), by simp only [Msr.hasAddress, maskBlockSize, maskBase]; omega⟩
  · exact ⟨.mask .l2 (a.toNat - 0xD10), by simp only [Msr.hasAddress, maskBlockSize, maskBase]; omega⟩
  · exact ⟨.mbaThrottle (a.toNat - 0xD50), by simp only [Msr.hasAddress]; omega⟩

/-- The classes of a well-formed configuration stay inside their blocks of addresses (00_scope.md R5). -/
theorem cosMax_inBlock {c : Cfg} (hwf : c.wf = true) :
    (∀ X, (c.cache X).cosMax < maskBlockSize X) ∧ c.mbaCosMax ≤ 65535 := by
  simp only [Cfg.wf, Cfg.l3CosMaxInBlock, Cfg.l2CosMaxInBlock, Cfg.mbaCosMaxInField, Bool.and_eq_true, decide_eq_true_iff] at hwf
  obtain ⟨⟨⟨⟨⟨⟨⟨hl3, hl2⟩, hmba⟩, _⟩, _⟩, _⟩, _⟩, _⟩ := hwf
  refine ⟨fun X => ?_, hmba⟩
  cases X with
  | l3 => exact Nat.lt_succ_of_le hl3
  | l2 => exact Nat.lt_succ_of_le hl2

/-- The lines of `MsrExists`, one for each kind of register: they are the map restricted to what the configuration implements. -/
theorem msrExists_iff {c : Cfg} (hwf : c.wf = true) (a : Nat) :
    msrExists c a ↔ ∃ r : Msr, r.hasAddress a ∧ msrImplemented c r = true := by
  obtain ⟨hblock, hmbaField⟩ := cosMax_inBlock hwf
  have hl3 : c.l3.cosMax < 128 := hblock .l3
  have hl2 : c.l2.cosMax < 64 := hblock .l2
  constructor
  · rintro (⟨ha, hpqe⟩ | ⟨ha, hcdp⟩ | ⟨ha, hcdp⟩ | ⟨hlo, hhi, hres⟩ | ⟨hlo, hhi, hres⟩ | ⟨hlo, hhi, hres⟩)
    · exact ⟨.pqrAssoc, ha, hpqe⟩
    · exact ⟨.qosCfg .l3, ha, hcdp⟩
    · exact ⟨.qosCfg .l2, ha, hcdp⟩
    · refine ⟨.mask .l3 (a - 0xC90), ?_, ?_⟩
      · simp only [Msr.hasAddress, maskBlockSize, maskBase]; omega
      · simp [msrImplemented, Cfg.cache, hres]; omega
    · refine ⟨.mask .l2 (a - 0xD10), ?_, ?_⟩
      · simp only [Msr.hasAddress, maskBlockSize, maskBase]; omega
      · simp [msrImplemented, Cfg.cache, hres]; omega
    · refine ⟨.mbaThrottle (a - 0xD50), ?_, ?_⟩
      · simp only [Msr.hasAddress]; omega
      · simp [msrImplemented, hres]; omega
  · rintro ⟨r, ha, himp⟩
    unfold msrExists
    cases r with
    | pqrAssoc => exact .inl ⟨ha, himp⟩
    | qosCfg X =>
      cases X with
      | l3 => exact .inr (.inl ⟨ha, himp⟩)
      | l2 => exact .inr (.inr (.inl ⟨ha, himp⟩))
    | mask X n =>
      simp only [msrImplemented, Bool.and_eq_true, decide_eq_true_iff] at himp
      obtain ⟨hres, hn⟩ := himp
      obtain ⟨_, rfl⟩ := ha
      cases X with
      | l3 => exact .inr (.inr (.inr (.inl ⟨Nat.le_add_right _ _, Nat.add_le_add_left hn _, hres⟩)))
      | l2 => exact .inr (.inr (.inr (.inr (.inl ⟨Nat.le_add_right _ _, Nat.add_le_add_left hn _, hres⟩))))
    | mbaThrottle n =>
      simp only [msrImplemented, Bool.and_eq_true, decide_eq_true_iff] at himp
      obtain ⟨hres, hn⟩ := himp
      obtain ⟨_, rfl⟩ := ha
      exact .inr (.inr (.inr (.inr (.inr ⟨Nat.le_add_right _ _, Nat.add_le_add_left hn _, hres⟩))))

theorem msrLookup_of_msrAt_some {c : Cfg} {a : W32} {r : Msr} (h : msrAt a = some r) : msrLookup c a =
    if msrImplemented c r = true then .implemented r else if isRdtAddress a = true then .absent else .outside := by
  simp only [msrLookup, h]

theorem msrLookup_of_msrAt_none {c : Cfg} {a : W32} (h : msrAt a = none) : msrLookup c a = .outside := by
  simp only [msrLookup, h]

/-- An address is implemented exactly as the register the map gives it, where the configuration has that register. -/
theorem msrLookup_implemented_iff (c : Cfg) (a : W32) (r : Msr) :
    msrLookup c a = .implemented r ↔ r.hasAddress a.toNat ∧ msrImplemented c r = true := by
  rw [← msrAt_eq_some_iff]
  constructor
  · intro h
    obtain ⟨q, hq, hat, himp⟩ | ⟨habs, _⟩ | hout := msrLookup_cases c a
    · rw [h, MsrLookup.implemented.injEq] at hq
      subst hq
      exact ⟨hat, himp⟩
    · rw [h] at habs
      cases habs
    · rw [h] at hout
      cases hout
  · rintro ⟨hat, himp⟩
    rw [msrLookup_of_msrAt_some hat, if_pos himp]

/-- The two other answers: they differ by whether the address belongs to the interface. -/
theorem msrLookup_of_not_implemented {c : Cfg} {a : W32} (h : ∀ r, msrLookup c a ≠ .implemented r) :
    msrLookup c a = if isRdtAddress a = true then .absent else .outside := by
  cases hr : msrAt a with
  | none =>
    have hout : ¬ isRdtAddress a = true := fun hrdt => by
      obtain ⟨r, hsome⟩ := exists_msrAt_of_rdtAddress ((isRdtAddress_iff a).mp hrdt)
      rw [hr] at hsome
      cases hsome
    rw [msrLookup_of_msrAt_none hr, if_neg hout]
  | some r =>
    have hlook := msrLookup_of_msrAt_some (c := c) hr
    have himp : ¬ msrImplemented c r = true := fun himp => h r (by rw [hlook, if_pos himp])
    rw [hlook, if_neg himp]

theorem exists_implemented_iff_msrExists {c : Cfg} (hwf : c.wf = true) (a : W32) :
    (∃ r, msrLookup c a = .implemented r) ↔ msrExists c a.toNat := by
  simp only [msrExists_iff hwf, msrLookup_implemented_iff]

theorem msrLookup_of_not_msrExists {c : Cfg} (hwf : c.wf = true) {a : W32} (h : ¬ msrExists c a.toNat) :
    msrLookup c a = if isRdtAddress a = true then .absent else .outside :=
  msrLookup_of_not_implemented fun r hr => h ((exists_implemented_iff_msrExists hwf a).mp ⟨r, hr⟩)

theorem msrLookup_of_absent {c : Cfg} (hwf : c.wf = true) {a : W32} (hrdt : rdtAddress a.toNat) (h : ¬ msrExists c a.toNat) :
    msrLookup c a = .absent := by rw [msrLookup_of_not_msrExists hwf h, if_pos ((isRdtAddress_iff a).mpr hrdt)]

theorem msrLookup_of_outside {c : Cfg} (hwf : c.wf = true) {a : W32} (hrdt : ¬ rdtAddress a.toNat) (h : ¬ msrExists c a.toNat) :
    msrLookup c a = .outside := by rw [msrLookup_of_not_msrExists hwf h, if_neg (mt (isRdtAddress_iff a).mp hrdt)]

/-- Settles O25: the implemented addresses are those of `MsrExists`; the look-up of any other is told by whether it is an RDT address. -/
theorem msrLookupMatchesMap : Obligations.MsrLookupMatchesMap := by
  unfold Obligations.MsrLookupMatchesMap
  intro c a hwf
  have himp := exists_implemented_iff_msrExists hwf a
  refine ⟨himp, ?_⟩
  by_cases hex : msrExists c a.toNat
  · obtain ⟨r, hr⟩ := himp.mpr hex
    simp [hr, hex]
  · by_cases hrdt : rdtAddress a.toNat
    · simp [msrLookup_of_absent hwf hrdt hex, hrdt, hex]
    · simp [msrLookup_of_outside hwf hrdt hex, hrdt, hex]

/-! The registers by their addresses -/

theorem msrLookup_mask {c : Cfg} (hwf : c.wf = true) {X : Level} {n : Nat} (hres : (c.cache X).res = true)
    (hn : n ≤ (c.cache X).cosMax) : msrLookup c (BitVec.ofNat 32 (maskBase X + n)) = .implemented (.mask X n) := by
  have hblock : n < maskBlockSize X := hn.trans_lt ((cosMax_inBlock hwf).1 X)
  have hsize : n < 128 := by cases X <;> simp only [maskBlockSize] at hblock <;> omega
  rw [msrLookup_implemented_iff, toNat_ofNat_maskBase_add X hsize]
  exact ⟨⟨hblock, rfl⟩, by simp [msrImplemented, hres, hn]⟩

theorem msrLookup_qosCfg {c : Cfg} {X : Level} (hcdp : (c.cache X).cdp = true) :
    msrLookup c (qosCfgAddress X) = .implemented (.qosCfg X) := by
  rw [msrLookup_implemented_iff]
  exact ⟨rfl, hcdp⟩

theorem msrLookup_mbaThrottle {c : Cfg} (hwf : c.wf = true) {n : Nat} (hres : c.resMba = true) (hn : n ≤ c.mbaCosMax) :
    msrLookup c (BitVec.ofNat 32 (0xD50 + n)) = .implemented (.mbaThrottle n) := by
  have hfield : n ≤ 65535 := hn.trans (cosMax_inBlock hwf).2
  rw [msrLookup_implemented_iff, BitVec.toNat_ofNat, Nat.mod_eq_of_lt (by omega)]
  exact ⟨⟨hfield, rfl⟩, by simp [msrImplemented, hres, hn]⟩

end Sys2Proof.Machine
end

section
/-! 41_msr_access.md R100, R101, R103 to R107: what `RDMSR` and `WRMSR` answer, one lemma for each outcome of their checks, and the
obligations about `#GP(0)`, refusals and `RDMSR`. -/

namespace Sys2Proof.Machine

theorem setWidth_eq_zero_append (w : W32) : w.setWidth 64 = (0 : W32) ++ w := by
  have hw := w.isLt
  apply BitVec.eq_of_toNat_eq
  rw [toNat_append_words, BitVec.toNat_setWidth, Nat.mod_eq_of_lt (by omega)]
  simp

theorem setWidth_delay (v : W16) : v.setWidth 64 = (v.setWidth 32).setWidth 64 := by
  have hv := v.isLt
  apply BitVec.eq_of_toNat_eq
  simp only [BitVec.toNat_setWidth]
  omega

section
variable {s : State}

theorem exec_rdmsr_of_unprivileged (hcpl : s.me.cpl ≠ 0) : exec .rdmsr s = s.raiseGP0 none := by
  have hpriv : ¬ s.privileged = true := mt s.privileged_iff.mp hcpl
  simp only [exec, execRdmsr, if_neg hpriv]

theorem exec_wrmsr_of_unprivileged (hcpl : s.me.cpl ≠ 0) : exec .wrmsr s = s.raiseGP0 (some (s.me.edx ++ s.me.eax)) := by
  have hpriv : ¬ s.privileged = true := mt s.privileged_iff.mp hcpl
  simp only [exec, execWrmsr, if_neg hpriv, State.msrOperand]

variable (hcpl : s.me.cpl = 0)
include hcpl

theorem exec_rdmsr_of_absent (hlook : msrLookup s.cfg s.me.ecx = .absent) : exec .rdmsr s = s.raiseGP0 none := by
  have hpriv := s.privileged_iff.mpr hcpl
  simp only [exec, execRdmsr, State.msrAddress, if_pos hpriv, hlook]

theorem exec_rdmsr_of_outside (hlook : msrLookup s.cfg s.me.ecx = .outside) :
    exec .rdmsr s = .refused (.notAnRdtMsr s.me.ecx) := by
  have hpriv := s.privileged_iff.mpr hcpl
  simp only [exec, execRdmsr, State.msrAddress, if_pos hpriv, hlook]

theorem exec_wrmsr_of_absent (hlook : msrLookup s.cfg s.me.ecx = .absent) :
    exec .wrmsr s = s.raiseGP0 (some (s.me.edx ++ s.me.eax)) := by
  have hpriv := s.privileged_iff.mpr hcpl
  simp only [exec, execWrmsr, State.msrAddress, State.msrOperand, if_pos hpriv, hlook]

theorem exec_wrmsr_of_outside (hlook : msrLookup s.cfg s.me.ecx = .outside) :
    exec .wrmsr s = .refused (.notAnRdtMsr s.me.ecx) := by
  have hpriv := s.privileged_iff.mpr hcpl
  simp only [exec, execWrmsr, State.msrAddress, if_pos hpriv, hlook]

variable {r : Msr} (hlook : msrLookup s.cfg s.me.ecx = .implemented r)
include hlook

theorem exec_wrmsr_of_invalid (hv : writeValid s.cfg r (s.me.edx ++ s.me.eax) = false) :
    exec .wrmsr s = s.raiseGP0 (some (s.me.edx ++ s.me.eax)) := by
  have hpriv := s.privileged_iff.mpr hcpl
  simp [exec, execWrmsr, State.msrAddress, State.msrOperand, hpriv, hlook, hv]

theorem exec_wrmsr_of_valid (hv : writeValid s.cfg r (s.me.edx ++ s.me.eax) = true) :
    exec .wrmsr s = .next (s.msrWrite s.active r (s.me.edx ++ s.me.eax)).advance := by
  have hpriv := s.privileged_iff.mpr hcpl
  simp [exec, execWrmsr, State.msrAddress, State.msrOperand, hpriv, hlook, hv]

/-- All that `RDMSR` of an implemented register does. -/
theorem rdmsr_completes : ∃ t, exec .rdmsr s = .next t ∧ t.me.edx = hiWord (s.msrRead s.active r) ∧
    t.me.eax = loWord (s.msrRead s.active r) ∧ t.me.ecx = s.me.ecx ∧ t.me.ebx = s.me.ebx ∧ t.fresh = s.fresh ∧
    s.CompletedInRegs t := by
  have hme := s.putMsrResult_advance_me (s.msrRead s.active r)
  refine ⟨_, exec_rdmsr_of_implemented hcpl hlook, ?_, ?_, ?_, ?_, rfl, s.putMsrResult_completed _⟩
  all_goals rw [hme]

/-- `RDMSR` of an implemented register whose content fits a word. -/
theorem rdmsr_completes_word {w : W32} (hread : s.msrRead s.active r = w.setWidth 64) :
    ∃ t, exec .rdmsr s = .next t ∧ t.me.edx = 0 ∧ t.me.eax = w ∧ t.me.ecx = s.me.ecx ∧ t.me.ebx = s.me.ebx ∧
      s.CompletedInRegs t := by
  have hword : s.msrRead s.active r = (0 : W32) ++ w := hread.trans (setWidth_eq_zero_append w)
  obtain ⟨t, hexec, hedx, heax, hecx, hebx, _, hdone⟩ := rdmsr_completes hcpl hlook
  rw [hword, hiWord_append] at hedx
  rw [hword, loWord_append] at heax
  exact ⟨t, hexec, hedx, heax, hecx, hebx, hdone⟩

end

/-- Settles O24: both causes raise `#GP(0)`, which writes the record alone. -/
theorem rdmsrTakesGP0 : Obligations.RdmsrTakesGP0 := by
  unfold Obligations.RdmsrTakesGP0
  intro s hwf hcause
  have hraise : exec .rdmsr s = s.raiseGP0 none := by
    by_cases hcpl : s.me.cpl = 0
    · obtain ⟨hrdt, hnot⟩ := hcause.resolve_left (not_not_intro hcpl)
      exact exec_rdmsr_of_absent hcpl (msrLookup_of_absent hwf hrdt hnot)
    · exact exec_rdmsr_of_unprivileged hcpl
  rw [hraise]
  exact s.raiseGP0_spec none

/-- Settles O29: the three causes raise `#GP(0)` with the value to be written, which writes the record alone. -/
theorem wrmsrTakesGP0 : Obligations.WrmsrTakesGP0 := by
  unfold Obligations.WrmsrTakesGP0
  intro s hwf hcause
  have hraise : exec .wrmsr s = s.raiseGP0 (some (s.me.edx ++ s.me.eax)) := by
    by_cases hcpl : s.me.cpl = 0
    · rcases hcause.resolve_left (not_not_intro hcpl) with ⟨hrdt, hnot⟩ | ⟨r, hlook, hv⟩
      · exact exec_wrmsr_of_absent hcpl (msrLookup_of_absent hwf hrdt hnot)
      · exact exec_wrmsr_of_invalid hcpl hlook hv
    · exact exec_wrmsr_of_unprivileged hcpl
  rw [hraise]
  exact s.raiseGP0_spec _

/-- Settles O26: the look-up answers outside, which both operations refuse. -/
theorem accessOutsideIsRefused : Obligations.AccessOutsideIsRefused := by
  unfold Obligations.AccessOutsideIsRefused
  intro s hwf hcpl hrdt hnot
  have hlook := msrLookup_of_outside hwf hrdt hnot
  exact ⟨exec_rdmsr_of_outside hcpl hlook, exec_wrmsr_of_outside hcpl hlook⟩

/-- Settles O19: the two halves put together are the content read. -/
theorem rdmsrResult : Obligations.RdmsrResult := by
  unfold Obligations.RdmsrResult
  intro s r hcpl hlook
  obtain ⟨t, hexec, hedx, heax, hrest⟩ := rdmsr_completes hcpl hlook
  exact ⟨t, hexec, by rw [hedx, heax, append_hiWord_loWord], hrest⟩

/-- Settles O21: a mask register's content is the mask, zero-extended. -/
theorem rdmsrMaskValue : Obligations.RdmsrMaskValue := by
  unfold Obligations.RdmsrMaskValue
  intro s X n hwf hcpl hres hn hecx
  have hlook : msrLookup s.cfg s.me.ecx = .implemented (.mask X n) := by rw [hecx, msrLookup_mask hwf hres hn]
  exact rdmsr_completes_word hcpl hlook rfl

/-- Settles O22: a QOS_CFG register's content is the CDP bit, zero-extended. -/
theorem rdmsrQosCfgValue : Obligations.RdmsrQosCfgValue := by
  unfold Obligations.RdmsrQosCfgValue
  intro s X hcpl hcdp hecx
  have hlook : msrLookup s.cfg s.me.ecx = .implemented (.qosCfg X) := by rw [hecx, msrLookup_qosCfg hcdp]
  refine rdmsr_completes_word hcpl hlook ?_
  rw [State.msrRead, msrResolve, State.readCell]
  split <;> rfl

/-- Settles O23: a delay register's content is the 16-bit delay, zero-extended. -/
theorem rdmsrMbaValue : Obligations.RdmsrMbaValue := by
  unfold Obligations.RdmsrMbaValue
  intro s n hwf hcpl hres hn hecx
  have hlook : msrLookup s.cfg s.me.ecx = .implemented (.mbaThrottle n) := by rw [hecx, msrLookup_mbaThrottle hwf hres hn]
  exact rdmsr_completes_word hcpl hlook (setWidth_delay _)

end Sys2Proof.Machine
end

section
/-! 10_state.md R29: the invariants hold after reset, and every step and every platform event keeps them. What the invariants read is
gathered in one relation between states, `State.SameInvFields`: an operation or event that keeps it keeps the invariants. That leaves
the writes of registers, whose values `writeValid` has checked, and the requests issued, which carry masks of the state. -/

namespace Sys2Proof.Machine

@[simp] theorem pqrLowValid_zero (c : Cfg) : pqrLowValid c 0 = true := by simp [pqrLowValid]

theorem contig_fullMask (c : CacheCfg) : contig (fullMask c.cbmLen).toNat = true := by
  rw [contig_iff, fullMask_toNat _ c.cbmLen_le]
  exact ⟨0, c.cbmLen, c.cbmLen_pos, by rw [pow_zero, mul_one]⟩

theorem fullMask_lt (c : CacheCfg) : (fullMask c.cbmLen).toNat < 2 ^ c.cbmLen := by
  rw [fullMask_toNat _ c.cbmLen_le]
  exact Nat.sub_lt (by positivity) one_pos

/-! States that read as after reset -/

/-- A state meets the invariants when its caches and delays read as after reset, its classes and low halves are 0, and no request is
under way. -/
theorem State.Inv.of_reads_as_reset {s : State} (hcache : ∀ X d, s.cache X d = CacheState.reset (s.cfg.cache X))
    (hcos : ∀ p, (s.lp p).pqrCos = 0) (hlow : ∀ p, (s.lp p).pqrLow = 0) (hmba : ∀ d n, s.mbaThr d n = 0)
    (hreq : s.requests = []) : s.Inv := by
  have hmask : ∀ X d n, s.mask X d n = fullMask (s.cfg.cache X).cbmLen := fun X d n => by
    rw [State.mask, hcache, CacheState.mask_reset]
  exact
    { masksContig := fun X d n => by rw [hmask]; exact contig_fullMask _
      masksInLength := fun X d n => by rw [hmask]; exact fullMask_lt _
      classesInRange := fun p => by rw [hcos]; exact Nat.zero_le _
      lowHalvesLegal := fun p => by rw [hlow]; exact pqrLowValid_zero _
      delaysInRange := fun d n => by rw [hmba]; exact Nat.zero_le _
      cdpWherePresent := fun X d h => by rw [hcache, CacheState.reset_cdp] at h; cases h
      unsettledInRange := fun X d n h => by rw [hcache] at h; cases h
      requestsInLength := fun r h => by rw [hreq] at h; cases h }

theorem State.inv_resetWith (c : Cfg) : (State.resetWith c).Inv :=
  State.Inv.of_reads_as_reset (State.cache_resetWith c) (State.pqrCos_lp_resetWith c)
    (fun p => by rw [State.lp_resetWith]; rfl) (State.mbaThr_resetWith c) rfl

/-- Settles O55: the reset state reads as after reset. -/
theorem resetMeetsInvariants : Obligations.ResetMeetsInvariants := State.inv_resetWith

theorem State.inv_resetEvent (s : State) : s.resetEvent.Inv := by
  obtain ⟨hlp, hcache, hmba⟩ := s.resetEvent_spec
  exact State.Inv.of_reads_as_reset hcache (fun p => by rw [hlp]; rfl) (fun p => by rw [hlp]; rfl) hmba rfl

/-! What keeps every field -/

/-- The invariants read nothing in which `t` differs from `s`; requests may have been retired. -/
structure State.SameInvFields (s t : State) : Prop where
  cfg : t.cfg = s.cfg
  masks : ∀ X d n, t.mask X d n = s.mask X d n
  cdp : ∀ X d, (t.cache X d).cdp = (s.cache X d).cdp
  unsettled : ∀ X d, (t.cache X d).hidden.unsettled = (s.cache X d).hidden.unsettled
  classes : ∀ p, (t.lp p).pqrCos = (s.lp p).pqrCos
  lowHalves : ∀ p, (t.lp p).pqrLow = (s.lp p).pqrLow
  delays : ∀ d n, t.mbaThr d n = s.mbaThr d n
  requests : ∀ r, r ∈ t.requests → r ∈ s.requests

theorem State.Inv.of_sameInvFields {s t : State} (hi : s.Inv) (h : s.SameInvFields t) : t.Inv where
  masksContig X d n := by rw [h.masks]; exact hi.masksContig X d n
  masksInLength X d n := by rw [h.masks, h.cfg]; exact hi.masksInLength X d n
  classesInRange p := by rw [h.classes, h.cfg]; exact hi.classesInRange p
  lowHalvesLegal p := by rw [h.lowHalves, h.cfg]; exact hi.lowHalvesLegal p
  delaysInRange d n := by rw [h.delays, h.cfg]; exact hi.delaysInRange d n
  cdpWherePresent X d := by rw [h.cdp, h.cfg]; exact hi.cdpWherePresent X d
  unsettledInRange X d n := by rw [h.unsettled, h.cfg]; exact hi.unsettledInRange X d n
  requestsInLength r hr X m := by rw [h.cfg]; exact hi.requestsInLength r (h.requests r hr) X m

/-- An operation that writes no register of the interface. -/
theorem State.SameSurroundings.sameInvFields {s t : State} (hs : s.SameSurroundings t) (hd : s.SameDomains t)
    (hcos : t.me.pqrCos = s.me.pqrCos) (hlow : t.me.pqrLow = s.me.pqrLow) : s.SameInvFields t := by
  have hme : t.me = t.lp s.active := State.me_of_active hs.active
  rw [hme] at hcos hlow
  have hlp : ∀ p, (t.lp p).pqrCos = (s.lp p).pqrCos ∧ (t.lp p).pqrLow = (s.lp p).pqrLow := by
    intro p
    by_cases hp : p = s.active
    · subst hp
      exact ⟨hcos, hlow⟩
    · rw [hs.others p hp]
      exact ⟨rfl, rfl⟩
  exact
    { cfg := hs.cfg
      masks := fun X d n => by rw [State.mask, hd.caches, hs.cfg, State.mask]
      cdp := fun X d => by rw [hd.caches]
      unsettled := fun X d => by rw [hd.caches]
      classes := fun p => (hlp p).1
      lowHalves := fun p => (hlp p).2
      delays := hd.delays
      requests := fun r hr => by rwa [hs.requests] at hr }

theorem State.sameInvFields_turnTo (s : State) (p : Nat) : s.SameInvFields (s.turnTo p) where
  cfg := rfl
  masks _ _ _ := rfl
  cdp _ _ := rfl
  unsettled _ _ := rfl
  classes _ := rfl
  lowHalves _ := rfl
  delays _ _ := rfl
  requests _ hr := hr

theorem State.sameInvFields_advance (s : State) : s.SameInvFields s.advance where
  cfg := rfl
  masks X d n := s.mask_advance X d n
  cdp X d := by rw [State.cache_advance]
  unsettled X d := by rw [State.cache_advance]
  classes q := s.pqrCos_lp_advance q
  lowHalves q := s.pqrLow_lp_advance q
  delays d n := rfl
  requests r hr := hr

/-- Requests retired, and processors in and out of SMM, are no matter of the invariants. -/
theorem State.sameInvFields_of_requests {s : State} {rs : List Request} (h : ∀ r, r ∈ rs → r ∈ s.requests) (ps : List Nat) :
    s.SameInvFields { s with requests := rs, inSmm := ps } where
  cfg := rfl
  masks _ _ _ := rfl
  cdp _ _ := rfl
  unsettled _ _ := rfl
  classes _ := rfl
  lowHalves _ := rfl
  delays _ _ := rfl
  requests := h

/-- Lines and overrides are no matter of the invariants. -/
theorem State.sameInvFields_setHidden {s : State} {X : Level} {d : Nat} {h : CacheHidden}
    (huns : h.unsettled = (s.cache X d).hidden.unsettled) : s.SameInvFields (s.setHidden X d h) where
  cfg := s.setHidden_cfg X d h
  masks Y e n := s.mask_setHidden X Y d e n h
  cdp Y e := by
    rw [State.cache_setHidden]
    split
    next hc => rw [hc.1, hc.2]
    next => rfl
  unsettled Y e := by
    rw [State.cache_setHidden]
    split
    next hc => rw [hc.1, hc.2]; exact huns
    next => rfl
  classes q := by rw [State.lp_setHidden]
  lowHalves q := by rw [State.lp_setHidden]
  delays e n := s.mbaThr_setHidden X d e n h
  requests r hr := by rwa [State.setHidden_requests] at hr

/-! A valid write of a register -/

theorem toNat_mbaStored_of_written {c : Cfg} (h : c.readback = .written) (v : W16) : (mbaStored c v).toNat = v.toNat := by
  simp only [mbaStored, h]

/-- Rounding never raises a delay, so that the value applied fits the register. -/
theorem toNat_mbaStored_of_rounded {c : Cfg} (h : c.readback = .rounded) (v : W16) :
    (mbaStored c v).toNat = mbaApplied c v.toNat := by
  have hlt : mbaApplied c v.toNat < 2 ^ 16 := (mbaApplied_le c v.toNat).trans_lt v.isLt
  simp only [mbaStored, h, BitVec.toNat_ofNat, Nat.mod_eq_of_lt hlt]

theorem toNat_mbaStored_le (c : Cfg) (v : W16) : (mbaStored c v).toNat ≤ v.toNat := by
  cases h : c.readback with
  | written => rw [toNat_mbaStored_of_written h]
  | rounded => rw [toNat_mbaStored_of_rounded h]; exact mbaApplied_le c _

/-- After a CDP write the unsettled indices are the former ones, or all the mask registers of the cache. -/
theorem CacheState.unsettled_writeCdp (c : CacheCfg) (k : CacheState) (b : Bool) : (k.writeCdp c b).hidden.unsettled =
    if b ≠ k.cdp ∧ k.allMasksFull c = false then List.range (c.cosMax + 1) else k.hidden.unsettled := by
  unfold CacheState.writeCdp
  by_cases h : b ≠ k.cdp ∧ k.allMasksFull c = false <;> simp [h]

section
variable {s : State} {r : Msr} {v : W64} (hi : s.Inv) (p : Nat)
include hi

theorem State.Inv.cdp_msrWrite (hex : msrImplemented s.cfg r = true) (X : Level) (d : Nat)
    (h : ((s.msrWrite p r v).cache X d).cdp = true) : (s.cfg.cache X).cdp = true := by
  by_cases hr : ∃ Y, r = .qosCfg Y
  · obtain ⟨Y, rfl⟩ := hr
    rw [State.cdp_msrWrite_qosCfg] at h
    split at h
    next hc => rw [hc.1]; exact hex
    next => exact hi.cdpWherePresent X d h
  · rw [State.cdp_msrWrite_of_ne _ _ _ fun Y h => hr ⟨Y, h⟩] at h
    exact hi.cdpWherePresent X d h

theorem State.Inv.unsettled_msrWrite (X : Level) (d n : Nat)
    (h : n ∈ ((s.msrWrite p r v).cache X d).hidden.unsettled) : n ≤ (s.cfg.cache X).cosMax := by
  cases r with
  | pqrAssoc =>
    rw [State.cache_msrWrite_of_ne _ _ _ (by simp) (by simp)] at h
    exact hi.unsettledInRange X d n h
  | mbaThrottle m =>
    rw [State.cache_msrWrite_of_ne _ _ _ (by simp) (by simp)] at h
    exact hi.unsettledInRange X d n h
  | qosCfg Y =>
    rw [State.cache_msrWrite_qosCfg] at h
    split at h
    next hc =>
      obtain ⟨rfl, rfl⟩ := hc
      rw [CacheState.unsettled_writeCdp] at h
      split at h
      next => exact Nat.lt_succ_iff.mp (List.mem_range.mp h)
      next => exact hi.unsettledInRange X _ n h
    next => exact hi.unsettledInRange X d n h
  | mask Y m =>
    rw [State.cache_msrWrite_mask] at h
    split at h
    next hc =>
      obtain ⟨rfl, rfl⟩ := hc
      rw [CacheState.writeMask_unsettled] at h
      exact hi.unsettledInRange X _ n (List.mem_of_mem_filter h)
    next => exact hi.unsettledInRange X d n h

variable (hv : writeValid s.cfg r v = true)
include hv

theorem State.Inv.mask_msrWrite (X : Level) (d n : Nat) :
    contig ((s.msrWrite p r v).mask X d n).toNat = true ∧
      ((s.msrWrite p r v).mask X d n).toNat < 2 ^ (s.cfg.cache X).cbmLen := by
  by_cases hr : ∃ Y m, r = .mask Y m
  · obtain ⟨Y, m, rfl⟩ := hr
    rw [State.mask_msrWrite_mask _ _ _ _ _ hv]
    obtain ⟨hlt, hcontig⟩ := (writeValid_mask_iff _ _ _ _).mp hv
    split
    next h =>
      rw [h.1, toNat_loWord_of_lt (s.cfg.cache Y).cbmLen_le hlt]
      exact ⟨hcontig, hlt⟩
    next => exact ⟨hi.masksContig X d n, hi.masksInLength X d n⟩
  · rw [State.mask_msrWrite_of_ne _ _ _ fun Y m h => hr ⟨Y, m, h⟩]
    exact ⟨hi.masksContig X d n, hi.masksInLength X d n⟩

theorem State.Inv.lp_msrWrite (q : Nat) :
    ((s.msrWrite p r v).lp q).pqrCos.toNat ≤ cosMaxAll s.cfg ∧
      pqrLowValid s.cfg ((s.msrWrite p r v).lp q).pqrLow = true := by
  by_cases hr : r = .pqrAssoc
  · subst hr
    rw [State.lp_msrWrite_pqrAssoc]
    split
    next => exact (writeValid_pqrAssoc_iff _ _).mp hv
    next => exact ⟨hi.classesInRange q, hi.lowHalvesLegal q⟩
  · rw [State.lp_msrWrite_of_ne _ _ _ hr]
    exact ⟨hi.classesInRange q, hi.lowHalvesLegal q⟩

theorem State.Inv.mbaThr_msrWrite (d n : Nat) : ((s.msrWrite p r v).mbaThr d n).toNat ≤ s.cfg.mbaMax := by
  by_cases hr : ∃ m, r = .mbaThrottle m
  · obtain ⟨m, rfl⟩ := hr
    obtain ⟨hlt, hmax⟩ := (writeValid_mbaThrottle_iff _ _ _).mp hv
    rw [State.mbaThr_msrWrite_mbaThrottle]
    split
    next =>
      calc (mbaStored s.cfg (v.setWidth 16)).toNat ≤ (v.setWidth 16).toNat := toNat_mbaStored_le _ _
        _ ≤ v.toNat := by rw [BitVec.toNat_setWidth]; exact Nat.mod_le _ _
        _ ≤ s.cfg.mbaMax := hmax
    next => exact hi.delaysInRange d n
  · rw [State.mbaThr_msrWrite_of_ne _ _ _ fun m h => hr ⟨m, h⟩]
    exact hi.delaysInRange d n

/-- A write that `WRMSR` accepts keeps the invariants. -/
theorem State.Inv.msrWrite (hex : msrImplemented s.cfg r = true) : (s.msrWrite p r v).Inv where
  masksContig X d n := (hi.mask_msrWrite p hv X d n).1
  masksInLength X d n := by rw [State.msrWrite_cfg]; exact (hi.mask_msrWrite p hv X d n).2
  classesInRange q := by rw [State.msrWrite_cfg]; exact (hi.lp_msrWrite p hv q).1
  lowHalvesLegal q := by rw [State.msrWrite_cfg]; exact (hi.lp_msrWrite p hv q).2
  delaysInRange d n := by rw [State.msrWrite_cfg]; exact hi.mbaThr_msrWrite p hv d n
  cdpWherePresent X d h := by rw [State.msrWrite_cfg]; exact hi.cdp_msrWrite p hex X d h
  unsettledInRange X d n h := by rw [State.msrWrite_cfg]; exact hi.unsettled_msrWrite p X d n h
  requestsInLength q hq := by
    rw [State.msrWrite_requests] at hq
    rw [State.msrWrite_cfg]
    exact hi.requestsInLength q hq

end

/-! Requests -/

/-- A request is issued with mask registers of its processor's domains, which lie inside the mask length. -/
theorem State.Inv.request_inLength {s : State} (hi : s.Inv) {p : Nat} {kind : RequestKind} {line : Nat} {X : Level} {m : W32}
    (h : (s.request p kind line).confines X = some m) : m.toNat < 2 ^ (s.cfg.cache X).cbmLen := by
  rw [State.request_confines, State.maskInForce_eq_some] at h
  obtain ⟨n, rfl⟩ := s.effMask_eq_some X p kind m h.2
  exact hi.masksInLength X _ n

theorem State.Inv.issue {s : State} (hi : s.Inv) (p : Nat) (kind : RequestKind) (line : Nat) :
    ({ s with requests := s.request p kind line :: s.requests } : State).Inv :=
  { hi with
    requestsInLength := fun r hr X m hm => by
      rcases List.mem_cons.mp hr with rfl | hold
      · exact hi.request_inLength hm
      · exact hi.requestsInLength r hold X m hm }

/-! Steps and events -/

theorem State.Inv.exec {i : Instr} {s t : State} (hi : s.Inv) (h : exec i s = .next t) : t.Inv := by
  rcases exec_next_cases i s t h with hregs | ⟨_, _, _, r, hlook, hvalid, rfl⟩ | ⟨v, hgp⟩
  · exact hi.of_sameInvFields
      (hregs.surroundings.sameInvFields hregs.domains hregs.standing.pqrCos hregs.standing.pqrLow)
  · have hex := (msrLookup_implemented_iff _ _ _).mp hlook
    exact (hi.msrWrite s.active hvalid hex.2).of_sameInvFields (State.sameInvFields_advance _)
  · exact hi.of_sameInvFields (hgp.surroundings.sameInvFields hgp.domains hgp.pqrCos hgp.pqrLow)

theorem State.Inv.step {s t : State} (hi : s.Inv) (h : step s = .next t) : t.Inv := by
  obtain ⟨p, i, _, hexec⟩ := step_next_cases s t h
  exact (hi.of_sameInvFields (s.sameInvFields_turnTo p)).exec hexec

theorem State.Inv.apply {e : PlatformEvent} {s : State} (hi : s.Inv) (hpos : e.possible s = true) : (e.apply s).Inv := by
  cases e with
  | issue p kind line => exact hi.issue p kind line
  | fill r X unit evicted => exact hi.of_sameInvFields (State.sameInvFields_setHidden (CacheHidden.place_unsettled _ _ _ _))
  | retire r => exact hi.of_sameInvFields (State.sameInvFields_of_requests (fun _ => List.mem_of_mem_erase) _)
  | agentFill X d line unit evicted =>
    exact hi.of_sameInvFields (State.sameInvFields_setHidden (CacheHidden.place_unsettled _ _ _ _))
  | setOverride X d on => exact hi.of_sameInvFields (State.sameInvFields_setHidden rfl)
  | flush X d kept => exact hi.of_sameInvFields (State.sameInvFields_setHidden rfl)
  | smi p => exact hi.of_sameInvFields (State.sameInvFields_of_requests (fun _ => id) _)
  | smmWrite p r v =>
    simp only [PlatformEvent.possible, Bool.and_eq_true] at hpos
    obtain ⟨⟨_, hex⟩, hvalid⟩ := hpos
    exact hi.msrWrite p hvalid hex
  | smmReturn p => exact hi.of_sameInvFields (State.sameInvFields_of_requests (fun _ => id) _)
  | c6 p => exact hi
  | packageCState => exact hi
  | reset => exact s.inv_resetEvent

/-- Settles O56: a step is an operation, and an operation writes no register or a valid value; an event, by cases. -/
theorem stepKeepsInvariants : Obligations.StepKeepsInvariants := by
  unfold Obligations.StepKeepsInvariants
  exact ⟨fun s t hi h => hi.step h, fun e s hi hpos => hi.apply hpos⟩

end Sys2Proof.Machine
end

section
/-! 10_state.md R25 to R27, 92_eei_decisions.md D34: a step commutes with erasing what no software can read. Every operation on the state
commutes with the erasure, so that a step of `s` and a step of `s` with its hidden part erased agree up to the hidden part; two states
that agree after erasure are then compared through it. -/

namespace Sys2Proof.Machine

/-! Lists under an update of every entry -/

theorem map_putAt {α : Type} (f : α → α) (dflt : α) (h : f dflt = dflt) (l : List α) (n : Nat) (v : α) :
    (putAt dflt l n v).map f = putAt dflt (l.map f) n (f v) := by
  induction l, n, v using putAt.induct with
  | case1 v => rfl
  | case2 n v ih => simpa [putAt, h] using ih
  | case3 x t v => rfl
  | case4 x t n v ih => simp [putAt, ih]

/-! Caches -/

@[simp] theorem CacheState.eraseHidden_reset (c : CacheCfg) : (CacheState.reset c).eraseHidden = CacheState.reset c := rfl

@[simp] theorem CacheState.eraseHidden_eraseHidden (k : CacheState) : k.eraseHidden.eraseHidden = k.eraseHidden := rfl

theorem CacheState.eraseHidden_writeCdp (c : CacheCfg) (k : CacheState) (b : Bool) :
    (k.writeCdp c b).eraseHidden = { k.eraseHidden with cdp := b } := by
  unfold CacheState.writeCdp
  split <;> rfl

theorem CacheState.eraseHidden_writeCdp_erased (c : CacheCfg) (k : CacheState) (b : Bool) :
    (k.eraseHidden.writeCdp c b).eraseHidden = (k.writeCdp c b).eraseHidden := by
  rw [CacheState.eraseHidden_writeCdp, CacheState.eraseHidden_writeCdp, CacheState.eraseHidden_eraseHidden]

theorem CacheState.eraseHidden_writeMask_erased (c : CacheCfg) (k : CacheState) (n : Nat) (m : W32) :
    (k.eraseHidden.writeMask c n m).eraseHidden = (k.writeMask c n m).eraseHidden := rfl

/-! What the erased state reads -/

section
variable (s : State)

@[simp] theorem State.me_eraseHidden : s.eraseHidden.me = s.me := rfl

theorem State.cache_eraseHidden (X : Level) (d : Nat) : s.eraseHidden.cache X d = (s.cache X d).eraseHidden := by
  cases X with
  | l3 => exact getAt_map _ _ (CacheState.eraseHidden_reset s.cfg.l3) s.l3 d
  | l2 => exact getAt_map _ _ (CacheState.eraseHidden_reset s.cfg.l2) s.l2 d

theorem State.mask_eraseHidden (X : Level) (d n : Nat) : s.eraseHidden.mask X d n = s.mask X d n := by
  rw [State.mask, State.cache_eraseHidden, State.eraseHidden_cfg]
  rfl

theorem State.msrRead_eraseHidden (p : Nat) (r : Msr) : s.eraseHidden.msrRead p r = s.msrRead p r := by
  cases r with
  | pqrAssoc => rfl
  | qosCfg X => simp [State.msrRead, msrResolve, State.readCell, State.cache_eraseHidden]
  | mask X n => simp [State.msrRead, msrResolve, State.readCell, State.mask_eraseHidden]
  | mbaThrottle n => rfl

/-! What the operations on the state leave after erasure -/

@[simp] theorem State.eraseHidden_eraseHidden : s.eraseHidden.eraseHidden = s.eraseHidden := by
  have hmap : ∀ l : List CacheState,
      (l.map CacheState.eraseHidden).map CacheState.eraseHidden = l.map CacheState.eraseHidden := fun l => by
    rw [List.map_map]
    rfl
  simp only [State.eraseHidden, hmap]

theorem State.eraseHidden_setCache (X : Level) (d : Nat) (k : CacheState) :
    (s.setCache X d k).eraseHidden = s.eraseHidden.setCache X d k.eraseHidden := by
  cases X with
  | l3 => simp only [State.eraseHidden, State.setCache, map_putAt _ _ (CacheState.eraseHidden_reset s.cfg.l3)]
  | l2 => simp only [State.eraseHidden, State.setCache, map_putAt _ _ (CacheState.eraseHidden_reset s.cfg.l2)]

/-- Writing a cache of the erased state, up to hidden parts: only what is left of the written cache after erasure counts. -/
theorem State.eraseHidden_setCache_erased {X : Level} {d : Nat} {k l : CacheState} (h : k.eraseHidden = l.eraseHidden) :
    (s.eraseHidden.setCache X d k).eraseHidden = (s.setCache X d l).eraseHidden := by
  rw [State.eraseHidden_setCache, State.eraseHidden_setCache, State.eraseHidden_eraseHidden, h]

theorem State.eraseHidden_msrWrite (p : Nat) (r : Msr) (v : W64) :
    (s.eraseHidden.msrWrite p r v).eraseHidden = (s.msrWrite p r v).eraseHidden := by
  cases r with
  | pqrAssoc => exact (s.msrWrite p .pqrAssoc v).eraseHidden_eraseHidden
  | qosCfg X =>
    refine s.eraseHidden_setCache_erased ?_
    rw [State.cache_eraseHidden]
    exact CacheState.eraseHidden_writeCdp_erased _ _ _
  | mask X n =>
    refine s.eraseHidden_setCache_erased ?_
    rw [State.cache_eraseHidden]
    exact CacheState.eraseHidden_writeMask_erased _ _ _ _
  | mbaThrottle n => exact (s.msrWrite p (.mbaThrottle n) v).eraseHidden_eraseHidden

/-! Operations and steps -/

/-- Erasing twice is erasing once. An update of the executing processor commutes with the erasure by definition, so that this
closes every operation that writes nothing else. -/
theorem eraseOutcome_next_eraseHidden : eraseOutcome (.next s.eraseHidden) = eraseOutcome (.next s) :=
  congrArg Host.Outcome.next s.eraseHidden_eraseHidden

theorem eraseOutcome_raiseGP0 (v : Option W64) : eraseOutcome (s.eraseHidden.raiseGP0 v) = eraseOutcome (s.raiseGP0 v) :=
  eraseOutcome_next_eraseHidden (s.setMe _)

theorem eraseOutcome_execRdmsr : eraseOutcome (execRdmsr s.eraseHidden) = eraseOutcome (execRdmsr s) := by
  have hpriv : s.eraseHidden.privileged = s.privileged := rfl
  have haddr : s.eraseHidden.msrAddress = s.msrAddress := rfl
  unfold execRdmsr
  rw [hpriv, haddr, State.eraseHidden_cfg]
  split
  · split
    next r _ =>
      rw [State.eraseHidden_active, State.msrRead_eraseHidden]
      exact eraseOutcome_next_eraseHidden (s.putMsrResult (s.msrRead s.active r)).advance
    next => exact eraseOutcome_raiseGP0 s none
    next => rfl
  · exact eraseOutcome_raiseGP0 s none

theorem State.eraseHidden_advance : s.advance.eraseHidden = s.eraseHidden.advance := rfl

theorem eraseOutcome_next_advance {t u : State} (h : t.eraseHidden = u.eraseHidden) :
    eraseOutcome (.next t.advance) = eraseOutcome (.next u.advance) := by
  simp only [eraseOutcome, State.eraseHidden_advance, h]

theorem eraseOutcome_execWrmsr : eraseOutcome (execWrmsr s.eraseHidden) = eraseOutcome (execWrmsr s) := by
  have hpriv : s.eraseHidden.privileged = s.privileged := rfl
  have haddr : s.eraseHidden.msrAddress = s.msrAddress := rfl
  have hoper : s.eraseHidden.msrOperand = s.msrOperand := rfl
  unfold execWrmsr
  rw [hpriv, haddr, hoper, State.eraseHidden_cfg]
  split
  · split
    next r _ =>
      split
      · exact eraseOutcome_next_advance (s.eraseHidden_msrWrite s.active r s.msrOperand)
      · exact eraseOutcome_raiseGP0 s _
    next => exact eraseOutcome_raiseGP0 s _
    next => rfl
  · exact eraseOutcome_raiseGP0 s _

theorem eraseOutcome_execCpuid : eraseOutcome (execCpuid s.eraseHidden) = eraseOutcome (execCpuid s) := by
  unfold execCpuid
  rw [State.eraseHidden_cfg, State.me_eraseHidden]
  split
  next o _ => exact eraseOutcome_next_eraseHidden (s.putCpuid o).advance
  next => rfl

/-- No operation reads the hidden part. -/
theorem eraseOutcome_exec (i : Instr) : eraseOutcome (exec i s.eraseHidden) = eraseOutcome (exec i s) := by
  cases i with
  | cpuid => exact eraseOutcome_execCpuid s
  | rdmsr => exact eraseOutcome_execRdmsr s
  | wrmsr => exact eraseOutcome_execWrmsr s
  | load r imm => exact eraseOutcome_next_eraseHidden (s.setReg r imm).advance

theorem State.mover_eraseHidden : s.eraseHidden.mover = s.mover := rfl

theorem State.stopReason_eraseHidden : s.eraseHidden.stopReason = s.stopReason := rfl

theorem State.fetch_eraseHidden (p : Nat) : s.eraseHidden.fetch p = s.fetch p := rfl

theorem State.turnTo_eraseHidden (p : Nat) : s.eraseHidden.turnTo p = (s.turnTo p).eraseHidden := rfl

theorem eraseOutcome_stepOf (p : Nat) : eraseOutcome (s.eraseHidden.stepOf p) = eraseOutcome (s.stepOf p) := by
  unfold State.stepOf
  rw [State.fetch_eraseHidden, State.turnTo_eraseHidden]
  split
  next i _ => exact eraseOutcome_exec (s.turnTo p) i
  next => rfl

theorem eraseOutcome_step : eraseOutcome (step s.eraseHidden) = eraseOutcome (step s) := by
  unfold step
  rw [State.mover_eraseHidden, State.stopReason_eraseHidden]
  split
  next p _ => exact eraseOutcome_stepOf s p
  next => rfl

end

/-- Settles O59: both steps agree with the step of the one erased state. -/
theorem hiddenStateIsNotObserved : Obligations.HiddenStateIsNotObserved := by
  unfold Obligations.HiddenStateIsNotObserved
  intro s u h
  calc eraseOutcome (step s) = eraseOutcome (step s.eraseHidden) := (eraseOutcome_step s).symm
    _ = eraseOutcome (step u.eraseHidden) := by rw [h]
    _ = eraseOutcome (step u) := eraseOutcome_step u

end Sys2Proof.Machine
end

section
/-! 10_state.md R12, 20_memory.md R53, 60_exceptions.md R195: who moves, when the machine stops, and what a step leaves of the logical
processors. `step_moves` says once what a step does to them; the obligations about steps follow from it. -/

namespace Sys2Proof.Machine

/-! The mover and the stop -/

theorem State.mover_eq_none_iff (s : State) : s.mover = none ↔ s.runnable = [] := by
  unfold State.mover
  split
  next h => simp [h]
  next p h => simp [h]
  next ps h1 h2 =>
    constructor
    · intro h
      split at h
      · split at h <;> cases h
      · cases h
    · intro h
      exact absurd h h1

/-- No one moves exactly when every processor of the configuration has stopped. -/
theorem State.mover_eq_none_iff_all_stopped (s : State) : s.mover = none ↔
    ∀ p, p < s.cfg.lps.length → (s.lp p).fault ≠ none ∨ (s.lp p).prog.length ≤ (s.lp p).pc := by
  simp only [State.mover_eq_none_iff, List.eq_nil_iff_forall_not_mem, State.mem_runnable, State.canStep_iff]
  refine forall_congr' fun p => ?_
  rw [not_and, not_and_or, not_lt]

/-- Settles O6: the mover is one that can step, and there is one as long as one can. -/
theorem moverIsAbleToStep : Obligations.MoverIsAbleToStep := by
  unfold Obligations.MoverIsAbleToStep
  intro s
  exact ⟨fun p hp => (s.canStep_iff p).mp (s.mover_some p hp), s.mover_eq_none_iff_all_stopped⟩

/-- An operation faults never, so a step does so only as the machine's stop. -/
theorem step_eq_fault_iff (s : State) (f : Fault) : step s = .fault f ↔ s.mover = none ∧ s.stopReason = f := by
  unfold step
  split
  next p hp =>
    have hnot : s.stepOf p ≠ .fault f := by
      unfold State.stepOf
      split
      · exact exec_no_fault _ _ f
      · simp
    simp [hp, hnot]
  next hp => simp [hp]

theorem State.stopReason_eq_stoppedByGP0_iff (s : State) : s.stopReason = .stoppedByGP0 ↔ s.someFault := by
  simp only [State.stopReason, State.someFault]
  split
  next h => simpa [Option.isSome_iff_ne_none] using h
  next h => simpa [Option.isSome_iff_ne_none] using h

theorem State.stopReason_eq_runEnded_iff (s : State) : s.stopReason = .runEnded ↔ ¬ s.someFault := by
  rw [← State.stopReason_eq_stoppedByGP0_iff]
  cases s.stopReason <;> simp

/-- Success is that no one moves and no fault is recorded. -/
theorem State.succeeded_iff (s : State) : s.succeeded ↔ s.mover = none ∧ ¬ s.someFault := by
  rw [State.mover_eq_none_iff_all_stopped]
  unfold State.succeeded State.someFault
  push Not
  constructor
  · intro h
    exact ⟨fun p hp => .inr (h p hp).2, fun p hp => (h p hp).1⟩
  · rintro ⟨hstop, hfault⟩ p hp
    exact ⟨hfault p hp, (hstop p hp).resolve_left (not_not_intro (hfault p hp))⟩

/-- Settles O7: the reason for the stop is told by whether a fault is recorded. -/
theorem stopsOnlyWhenNoOneCanStep : Obligations.StopsOnlyWhenNoOneCanStep := by
  unfold Obligations.StopsOnlyWhenNoOneCanStep
  intro s
  constructor
  · rw [step_eq_fault_iff, State.stopReason_eq_runEnded_iff, State.succeeded_iff]
  · rw [step_eq_fault_iff, State.stopReason_eq_stoppedByGP0_iff]

/-! The turn -/

@[simp] theorem State.lp_turnTo (s : State) (p q : Nat) : (s.turnTo p).lp q = s.lp q := rfl

@[simp] theorem State.me_turnTo (s : State) (p : Nat) : (s.turnTo p).me = s.lp p := rfl

theorem State.sameDomains_turnTo (s : State) (p : Nat) : s.SameDomains (s.turnTo p) := ⟨fun _ _ => rfl, fun _ _ => rfl⟩

theorem step_of_decode {s : State} {p : Nat} {i : Instr} (hp : s.mover = some p) (hi : decode (s.fetch p) = .instr i) :
    step s = exec i (s.turnTo p) := by
  simp only [step, hp, State.stepOf, hi]

/-- Settles O4: the turn changes the model's own bookkeeping alone. -/
theorem stepRunsFetchedOperation : Obligations.StepRunsFetchedOperation := by
  unfold Obligations.StepRunsFetchedOperation
  intro s p i hp hi
  exact ⟨step_of_decode hp hi, rfl, rfl, s.lp_turnTo p, s.sameDomains_turnTo p, rfl, rfl, rfl⟩

/-- Settles O5: the bytes fetched decode to no operation. -/
theorem stepRefusesOtherBytes : Obligations.StepRefusesOtherBytes := by
  unfold Obligations.StepRefusesOtherBytes
  intro s p e hp he
  simp only [step, hp, State.stepOf, he]

/-! What an operation and a step leave of the logical processors -/

/-- An operation that gives a next state stays in its surroundings, keeps privilege level and program, and either completes or takes
`#GP(0)`. -/
theorem exec_next_me {i : Instr} {s t : State} (h : exec i s = .next t) :
    s.SameSurroundings t ∧ t.me.cpl = s.me.cpl ∧ t.me.prog = s.me.prog ∧
      ((t.me.pc = s.me.pc + 1 ∧ t.me.fault = s.me.fault) ∨
        (t.me.pc = s.me.pc ∧ ∃ v, t.me.fault = some { pc := s.me.pc, address := s.me.ecx, value := v })) := by
  rcases exec_next_cases i s t h with hregs | ⟨hwrote, _⟩ | ⟨v, hgp⟩
  · exact ⟨hregs.surroundings, hregs.standing.cpl, hregs.standing.prog, .inl ⟨hregs.pc, hregs.standing.fault⟩⟩
  · exact ⟨hwrote.surroundings, hwrote.cpl, hwrote.prog, .inl ⟨hwrote.pc, hwrote.fault⟩⟩
  · exact ⟨hgp.surroundings, hgp.cpl, hgp.prog, .inr ⟨hgp.pc, v, hgp.record⟩⟩

/-- What a step does: one processor that can step moves, and nothing else of any processor, and not the configuration, changes. -/
theorem step_moves {s t : State} (h : step s = .next t) : ∃ p, s.canStep p = true ∧ t.cfg = s.cfg ∧
    (∀ q, q ≠ p → t.lp q = s.lp q) ∧ (t.lp p).cpl = (s.lp p).cpl ∧ (t.lp p).prog = (s.lp p).prog ∧
      (((t.lp p).pc = (s.lp p).pc + 1 ∧ (t.lp p).fault = (s.lp p).fault) ∨
        ((t.lp p).pc = (s.lp p).pc ∧
          ∃ v, (t.lp p).fault = some { pc := (s.lp p).pc, address := (s.lp p).ecx, value := v })) := by
  obtain ⟨p, i, hp, hexec⟩ := step_next_cases s t h
  obtain ⟨hsur, hrest⟩ := exec_next_me hexec
  have hme : t.me = t.lp p := State.me_of_active hsur.active
  rw [hme, State.me_turnTo] at hrest
  exact ⟨p, hp, hsur.cfg, hsur.others, hrest⟩

/-- Settles O8: the processor that moves had no fault recorded, so that one which completes has none. -/
theorem stepMovesOneProcessor : Obligations.StepMovesOneProcessor := by
  unfold Obligations.StepMovesOneProcessor
  intro s t h
  obtain ⟨p, hp, _, hothers, _, _, hmove⟩ := step_moves h
  obtain ⟨hlt, hfault, hpc⟩ := (s.canStep_iff p).mp hp
  rw [hfault] at hmove
  exact ⟨p, hlt, hfault, hpc, hothers, hmove⟩

/-- Settles O9: the processor that moves is another one, for it has recorded no fault. -/
theorem recordedFaultIsFinal : Obligations.RecordedFaultIsFinal := by
  unfold Obligations.RecordedFaultIsFinal
  intro s t q g h hq
  obtain ⟨p, hp, _, hothers, _⟩ := step_moves h
  obtain ⟨_, hfault, _⟩ := (s.canStep_iff p).mp hp
  refine hothers q ?_
  rintro rfl
  rw [hfault] at hq
  cases hq

/-- Settles O58: of the processor that moves, privilege level and program stay; of the others, everything. -/
theorem stepKeepsConfiguration : Obligations.StepKeepsConfiguration := by
  unfold Obligations.StepKeepsConfiguration
  intro s t h
  obtain ⟨p, _, hcfg, hothers, hcpl, hprog, _⟩ := step_moves h
  refine ⟨hcfg, fun q => ?_⟩
  by_cases hq : q = p
  · subst hq
    exact ⟨hcpl, hprog⟩
  · rw [hothers q hq]
    exact ⟨rfl, rfl⟩

end Sys2Proof.Machine
end

section
/-! 40_cpuid_enumeration.md R80 to R90, 92_eei_decisions.md D15: the leaves of `CPUID`. The table gives one output for each leaf and
sub-leaf, `CPUID` writes it, and each obligation reads bits or fields that the table determines. -/

namespace Sys2Proof.Machine

/-! The table, row by row -/

theorem cpuidTable_leaf7 (c : Cfg) : cpuidTable c 0x7 0 = some (cpuidLeaf7 c) := by simp [cpuidTable]

theorem cpuidTable_leaf10 (c : Cfg) (sub : W32) : cpuidTable c 0x10 sub = some (cpuidLeaf10 c sub) := by simp [cpuidTable]

theorem cpuidTable_eq_none {c : Cfg} {leaf sub : W32} (h10 : leaf ≠ 0x10) (h7 : ¬ (leaf = 0x7 ∧ sub = 0)) :
    cpuidTable c leaf sub = none := by rw [cpuidTable, if_neg h7, if_neg h10]

theorem cpuidLeaf10_cache {c : Cfg} {X : Level} (hpqe : c.pqe = true) (hres : (c.cache X).res = true) :
    cpuidLeaf10 c (resId X) = cpuidCache (c.cache X) := by
  cases X with
  | l3 =>
    have hl3 : c.l3.res = true := hres
    simp [cpuidLeaf10, resId, Cfg.cache, hpqe, hl3]
  | l2 =>
    have hl2 : c.l2.res = true := hres
    simp [cpuidLeaf10, resId, Cfg.cache, hpqe, hl2]

theorem cpuidLeaf10_mba {c : Cfg} (hpqe : c.pqe = true) (hres : c.resMba = true) : cpuidLeaf10 c 3 = cpuidMba c := by
  simp [cpuidLeaf10, hpqe, hres]

/-- Without PQE, or for a sub-leaf that is no supported resource, the table determines nothing. -/
theorem cpuidLeaf10_unsupported {c : Cfg} {sub : W32}
    (h : c.pqe = false ∨ (sub ≠ 0 ∧ (sub ≠ 1 ∨ c.l3.res = false) ∧ (sub ≠ 2 ∨ c.l2.res = false) ∧
      (sub ≠ 3 ∨ c.resMba = false))) : cpuidLeaf10 c sub = openOutput := by
  rcases h with hpqe | ⟨h0, h1, h2, h3⟩
  · simp [cpuidLeaf10, hpqe]
  · have hl3 : ¬ (sub = 1 ∧ c.l3.res = true) := by simpa [or_iff_not_imp_left] using h1
    have hl2 : ¬ (sub = 2 ∧ c.l2.res = true) := by simpa [or_iff_not_imp_left] using h2
    have hmba : ¬ (sub = 3 ∧ c.resMba = true) := by simpa [or_iff_not_imp_left] using h3
    rw [cpuidLeaf10, if_neg h0, if_neg hl3, if_neg hl2, if_neg hmba, ite_self]

/-! The outputs -/

theorem PartialWord.fill_openWord (free : W32) : openWord.fill free = free := by
  apply BitVec.eq_of_getLsbD_eq
  intro i _
  simp [PartialWord.fill, getLsbD_mixBits, openWord]

/-- A low field whose bits are all determined reads as it is known. -/
theorem PartialWord.toNat_field_fill {w : PartialWord} (n : Nat) (free : W32) (hdet : ∀ i, i < n → w.det.getLsbD i = true)
    (hknown : w.known.toNat < 2 ^ n) : ((w.fill free).extractLsb' 0 n).toNat = w.known.toNat :=
  toNat_extractLsb'_mixBits w.det w.known free n hdet hknown

/-- The four registers after `CPUID`. -/
theorem State.putCpuid_advance_me (s : State) (o : CpuidOutput) :
    (s.putCpuid o).advance.me.eax = o.eax.fill (Config.cpuidFree s.fresh) ∧
      (s.putCpuid o).advance.me.ebx = o.ebx.fill (Config.cpuidFree (s.fresh + 1)) ∧
      (s.putCpuid o).advance.me.ecx = o.ecx.fill (Config.cpuidFree (s.fresh + 2)) ∧
      (s.putCpuid o).advance.me.edx = o.edx.fill (Config.cpuidFree (s.fresh + 3)) := by
  rw [State.me_advance, State.putCpuid_me]
  exact ⟨rfl, rfl, rfl, rfl⟩

theorem exec_cpuid_leaf7 {s : State} (heax : s.me.eax = 0x7) (hecx : s.me.ecx = 0) :
    exec .cpuid s = .next (s.putCpuid (cpuidLeaf7 s.cfg)).advance :=
  exec_cpuid_of_table (by rw [heax, hecx, cpuidTable_leaf7])

theorem exec_cpuid_leaf10 {s : State} (heax : s.me.eax = 0x10) :
    exec .cpuid s = .next (s.putCpuid (cpuidLeaf10 s.cfg s.me.ecx)).advance :=
  exec_cpuid_of_table (by rw [heax, cpuidTable_leaf10])

/-! The obligations -/

/-- Settles O11: the table has a row for each of these leaves. -/
theorem cpuidCompletes : Obligations.CpuidCompletes := by
  unfold Obligations.CpuidCompletes
  rintro s (⟨heax, hecx⟩ | heax)
  · exact ⟨_, exec_cpuid_leaf7 heax hecx, rfl, s.putCpuid_completed _⟩
  · exact ⟨_, exec_cpuid_leaf10 heax, rfl, s.putCpuid_completed _⟩

/-- Settles O12: leaf 07H determines bit 15 of EBX. -/
theorem cpuidLeaf7Result : Obligations.CpuidLeaf7Result := by
  unfold Obligations.CpuidLeaf7Result
  intro s heax hecx
  obtain ⟨_, hebx, _, _⟩ := s.putCpuid_advance_me (cpuidLeaf7 s.cfg)
  refine ⟨_, exec_cpuid_leaf7 heax hecx, ?_, s.putCpuid_completed _⟩
  rw [hebx, PartialWord.getLsbD_fill_of_det _ (by simp [cpuidLeaf7])]
  simp [cpuidLeaf7]

theorem toNat_ofNat_of_le_field {n : Nat} (h : n ≤ 65535) : (BitVec.ofNat 32 n).toNat = n := by
  rw [BitVec.toNat_ofNat, Nat.mod_eq_of_lt (by omega)]

/-- The fields of a cache's sub-leaf, for any free words. -/
theorem cpuidCache_fields (c : CacheCfg) (hcos : c.cosMax ≤ 65535) (f0 f1 f2 f3 : W32) :
    (((cpuidCache c).eax.fill f0).extractLsb' 0 5).toNat + 1 = c.cbmLen ∧
      (∀ i, i < c.cbmLen → ((cpuidCache c).ebx.fill f1).getLsbD i = c.share.getLsbD i) ∧
      ((cpuidCache c).ecx.fill f2).getLsbD 2 = c.cdp ∧
      (((cpuidCache c).edx.fill f3).extractLsb' 0 16).toNat = c.cosMax := by
  have hpos := c.cbmLen_pos
  have hlen := c.cbmLen_le
  have hknownA : (cpuidCache c).eax.known.toNat = c.cbmLen - 1 := toNat_ofNat_of_le_field (by omega)
  have hknownD : (cpuidCache c).edx.known.toNat = c.cosMax := toNat_ofNat_of_le_field hcos
  refine ⟨?_, fun i hi => ?_, ?_, ?_⟩
  · rw [PartialWord.toNat_field_fill 5 f0 (by simp only [cpuidCache]; decide) (by omega), hknownA, Nat.sub_add_cancel hpos]
  · refine PartialWord.getLsbD_fill_of_det f1 ?_
    rw [cpuidCache, getLsbD_fullMask _ _ hlen, decide_eq_true hi]
  · rw [PartialWord.getLsbD_fill_of_det f2 (by simp [cpuidCache])]
    simp [cpuidCache]
  · rw [PartialWord.toNat_field_fill 16 f3 (by simp only [cpuidCache]; decide) (by omega), hknownD]

/-- Settles O14: the fields of the cache's sub-leaf. -/
theorem cpuidCacheResult : Obligations.CpuidCacheResult := by
  unfold Obligations.CpuidCacheResult
  intro s X heax hecx hpqe hres hcos
  have hexec := exec_cpuid_leaf10 heax
  rw [hecx, cpuidLeaf10_cache hpqe hres] at hexec
  obtain ⟨heax', hebx', hecx', hedx'⟩ := s.putCpuid_advance_me (cpuidCache (s.cfg.cache X))
  obtain ⟨hlen, hshare, hcdp, hmax⟩ := cpuidCache_fields (s.cfg.cache X) hcos _ _ _ _
  refine ⟨_, hexec, ?_, fun i hi => ?_, ?_, ?_, s.putCpuid_completed _⟩
  · rw [heax']; exact hlen
  · rw [hebx']; exact hshare i hi
  · rw [hecx']; exact hcdp
  · rw [hedx']; exact hmax

/-- The fields of the MBA sub-leaf, for any free words. -/
theorem cpuidMba_fields {c : Cfg} (hpos : 1 ≤ c.mbaMax) (hmax : c.mbaMax ≤ 4096) (hcos : c.mbaCosMax ≤ 65535) (f0 f2 f3 : W32) :
    (((cpuidMba c).eax.fill f0).extractLsb' 0 12).toNat + 1 = c.mbaMax ∧
      ((cpuidMba c).ecx.fill f2).getLsbD 2 = c.mbaLinear ∧
      (((cpuidMba c).edx.fill f3).extractLsb' 0 16).toNat = c.mbaCosMax := by
  have hknownA : (cpuidMba c).eax.known.toNat = c.mbaMax - 1 := toNat_ofNat_of_le_field (by omega)
  have hknownD : (cpuidMba c).edx.known.toNat = c.mbaCosMax := toNat_ofNat_of_le_field hcos
  refine ⟨?_, ?_, ?_⟩
  · rw [PartialWord.toNat_field_fill 12 f0 (by simp only [cpuidMba]; decide) (by omega), hknownA, Nat.sub_add_cancel hpos]
  · rw [PartialWord.getLsbD_fill_of_det f2 (by simp [cpuidMba])]
    simp [cpuidMba]
  · rw [PartialWord.toNat_field_fill 16 f3 (by simp only [cpuidMba]; decide) (by omega), hknownD]

/-- Settles O15: the fields of the MBA sub-leaf. -/
theorem cpuidMbaResult : Obligations.CpuidMbaResult := by
  unfold Obligations.CpuidMbaResult
  intro s heax hecx hpqe hres hpos hmax hcos
  have hexec := exec_cpuid_leaf10 heax
  rw [hecx, cpuidLeaf10_mba hpqe hres] at hexec
  obtain ⟨heax', _, hecx', hedx'⟩ := s.putCpuid_advance_me (cpuidMba s.cfg)
  obtain ⟨hfield, hlinear, hclass⟩ := cpuidMba_fields hpos hmax hcos _ _ _
  refine ⟨_, hexec, ?_, ?_, ?_, s.putCpuid_completed _⟩
  · rw [heax']; exact hfield
  · rw [hecx']; exact hlinear
  · rw [hedx']; exact hclass

/-- Settles O16: the table has no row for any other leaf. -/
theorem cpuidRefusesOtherLeaves : Obligations.CpuidRefusesOtherLeaves := by
  unfold Obligations.CpuidRefusesOtherLeaves
  intro s h10 h7
  simp only [exec, execCpuid, cpuidTable_eq_none h10 h7]

/-- Settles O17: an output of which nothing is determined is its free word. -/
theorem cpuidUnsupportedSubleafIsFree : Obligations.CpuidUnsupportedSubleafIsFree := by
  unfold Obligations.CpuidUnsupportedSubleafIsFree
  intro s heax hun
  have hexec := exec_cpuid_leaf10 heax
  rw [cpuidLeaf10_unsupported hun] at hexec
  obtain ⟨heax', hebx', hecx', hedx'⟩ := s.putCpuid_advance_me openOutput
  refine ⟨_, hexec, ?_, ?_, ?_, ?_, s.putCpuid_completed _⟩
  · rw [heax']; exact PartialWord.fill_openWord _
  · rw [hebx']; exact PartialWord.fill_openWord _
  · rw [hecx']; exact PartialWord.fill_openWord _
  · rw [hedx']; exact PartialWord.fill_openWord _

/-- A next state of `CPUID` is the table's output written. -/
theorem exec_cpuid_next {s t : State} (h : exec .cpuid s = .next t) :
    ∃ o, cpuidTable s.cfg s.me.eax s.me.ecx = some o ∧ t = (s.putCpuid o).advance := by
  simp only [exec, execCpuid] at h
  split at h
  next o ho =>
    cases h
    exact ⟨o, ho, rfl⟩
  next => cases h

/-- Settles O18: the table and the free words are all that the four registers come from. -/
theorem cpuidIgnoresRegisters : Obligations.CpuidIgnoresRegisters := by
  unfold Obligations.CpuidIgnoresRegisters
  intro s u s' u' hcfg hfresh heax hecx hs hu r
  obtain ⟨o, ho, rfl⟩ := exec_cpuid_next hs
  obtain ⟨o', ho', rfl⟩ := exec_cpuid_next hu
  rw [hcfg, heax, hecx, ho', Option.some.injEq] at ho
  subst ho
  obtain ⟨hsa, hsb, hsc, hsd⟩ := s.putCpuid_advance_me o'
  obtain ⟨hua, hub, huc, hud⟩ := u.putCpuid_advance_me o'
  rw [hfresh] at hsa hsb hsc hsd
  cases r with
  | eax => exact hsa.trans hua.symm
  | ecx => exact hsc.trans huc.symm
  | edx => exact hsd.trans hud.symm
  | ebx => exact hsb.trans hub.symm

end Sys2Proof.Machine
end

section
/-! 41_msr_access.md R101, 20_memory.md R42, R45: what a register reads after a `WRMSR`, and who cannot change it. -/

namespace Sys2Proof.Machine

@[simp] theorem State.msrRead_advance (s : State) (q : Nat) (r : Msr) : s.advance.msrRead q r = s.msrRead q r :=
  s.readCell_advance _

/-- The cell that `r` resolves to reads, after a write, what the register reads. -/
theorem cellAfter_msrResolve (c : Cfg) (p : Nat) (r : Msr) (v : W64) :
    cellAfter c v (msrResolve c p r) = writtenValue c r v := by cases r <;> rfl

/-- The storage law, register by register as each processor sees it. -/
theorem State.msrRead_msrWrite {s : State} {r : Msr} {v : W64} (hv : writeValid s.cfg r v = true) (p q : Nat) (r' : Msr) :
    (s.msrWrite p r v).msrRead q r' =
      if msrResolve s.cfg q r' = msrResolve s.cfg p r then writtenValue s.cfg r v else s.msrRead q r' := by
  rw [State.msrRead, State.msrWrite_cfg, State.readCell_msrWrite _ _ _ _ hv]
  split
  next h => rw [h, cellAfter_msrResolve]
  next => rfl

/-- Settles O28: `WRMSR` writes one cell and moves on. -/
theorem wrmsrStoresOneCell : Obligations.WrmsrStoresOneCell := by
  unfold Obligations.WrmsrStoresOneCell
  intro s r hcpl hlook hv
  refine ⟨_, exec_wrmsr_of_valid hcpl hlook hv, s.msrWrite_completed r _, fun q r' => ?_⟩
  rw [State.msrRead_advance, State.msrRead_msrWrite hv]

/-- Settles O60: what an operation writes is a register of its own processor, and the storage law leaves the other cells. -/
theorem otherDomainsUntouched : Obligations.OtherDomainsUntouched := by
  unfold Obligations.OtherDomainsUntouched
  intro i s t q r h hreach
  rcases exec_next_cases i s t h with hregs | ⟨_, _, _, r', _, hv, rfl⟩ | ⟨v, hgp⟩
  · exact hregs.surroundings.sameMsrs hregs.domains hregs.standing.pqrCos hregs.standing.pqrLow q r
  · rw [State.msrRead_advance, State.msrRead_msrWrite hv, if_neg (hreach r').symm]
  · exact hgp.surroundings.sameMsrs hgp.domains hgp.pqrCos hgp.pqrLow q r

/-- Settles O57: the one operation that writes a register needs privilege level 0. -/
theorem userLevelWritesNoMsr : Obligations.UserLevelWritesNoMsr := by
  unfold Obligations.UserLevelWritesNoMsr
  intro i s t hcpl h
  rcases exec_next_cases i s t h with hregs | ⟨_, _, hzero, _⟩ | ⟨v, hgp⟩
  · exact hregs.surroundings.sameMsrs hregs.domains hregs.standing.pqrCos hregs.standing.pqrLow
  · exact absurd hzero hcpl
  · exact hgp.surroundings.sameMsrs hgp.domains hgp.pqrCos hgp.pqrLow

/-- Settles O45: an operation writes no cache, or a register of one, which holds no line and no override. -/
theorem linesStay : Obligations.LinesStay := by
  unfold Obligations.LinesStay
  intro i s t h
  rcases exec_next_cases i s t h with hregs | ⟨hwrote, _, _, r, _, _, rfl⟩ | ⟨v, hgp⟩
  · exact ⟨hregs.surroundings.requests, fun X d => by rw [hregs.domains.caches]; exact ⟨rfl, rfl⟩⟩
  · exact ⟨hwrote.surroundings.requests, fun X d => by
      rw [State.cache_advance]; exact s.lines_override_msrWrite s.active _ r X d⟩
  · exact ⟨hgp.surroundings.requests, fun X d => by rw [hgp.domains.caches]; exact ⟨rfl, rfl⟩⟩

end Sys2Proof.Machine
end

section
/-! 42_cat.md R121 to R128, 43_cdp.md R151, R152, 44_mba.md R173, R178: `WRMSR` of each kind of register, legal value or not. -/

namespace Sys2Proof.Machine

/-- `WRMSR` of a value that may not be written. -/
theorem wrmsr_takesGP0_of_invalid {s : State} {r : Msr} (hcpl : s.me.cpl = 0) (hlook : msrLookup s.cfg s.me.ecx = .implemented r)
    (hv : ¬ writeValid s.cfg r (s.me.edx ++ s.me.eax) = true) :
    ∃ t, exec .wrmsr s = .next t ∧ s.TookGP0 t (some (s.me.edx ++ s.me.eax)) := by
  rw [exec_wrmsr_of_invalid hcpl hlook (Bool.not_eq_true _ ▸ hv)]
  exact s.raiseGP0_spec _

/-- A write of another register than IA32_PQR_ASSOC leaves all of its processor but the program counter. -/
theorem State.me_msrWrite_advance_of_ne {s : State} {r : Msr} (hr : r ≠ .pqrAssoc) (v : W64) :
    (s.msrWrite s.active r v).advance.me = { s.me with pc := s.me.pc + 1 } := by
  rw [State.me_advance, State.me, State.msrWrite_active, State.lp_msrWrite_of_ne _ _ _ hr]
  rfl

theorem getLsbD_zero_append (hi lo : W32) : (hi ++ lo : W64).getLsbD 0 = lo.getLsbD 0 := by
  rw [BitVec.getLsbD_append]
  rfl

/-- Settles O31: the legal masks are the valid values, and one is stored as its low word. -/
theorem maskWriteResult : Obligations.MaskWriteResult := by
  unfold Obligations.MaskWriteResult
  intro s X n hwf hcpl hres hn hecx
  have hlook : msrLookup s.cfg s.me.ecx = .implemented (.mask X n) := by rw [hecx, msrLookup_mask hwf hres hn]
  rw [← legalMaskValues s.cfg X n]
  refine ⟨fun hv => ?_, wrmsr_takesGP0_of_invalid hcpl hlook⟩
  refine ⟨_, exec_wrmsr_of_valid hcpl hlook hv, s.msrWrite_completed _ _, ?_, fun Y d m hother => ?_, fun Y d => ?_,
    fun d m => ?_, ?_, ?_⟩
  · rw [State.mask_advance, State.mask_msrWrite_mask _ _ _ _ _ hv, if_pos ⟨rfl, rfl, rfl⟩, loWord_append]
  · have hne : ¬ (Y = X ∧ d = s.cfg.dom X s.active ∧ m = n) := by rwa [not_and_or, not_and_or]
    rw [State.mask_advance, State.mask_msrWrite_mask _ _ _ _ _ hv, if_neg hne]
  · rw [State.cache_advance, State.cdp_msrWrite_of_ne _ _ _ (by simp)]
  · rw [State.mbaThr_advance, State.mbaThr_msrWrite_of_ne _ _ _ (by simp)]
  · rw [State.me_msrWrite_advance_of_ne (by simp)]
  · rw [State.me_msrWrite_advance_of_ne (by simp)]

/-- Settles O32: the class and the low half are the two words written, each with its own check. -/
theorem pqrWriteResult : Obligations.PqrWriteResult := by
  unfold Obligations.PqrWriteResult
  intro s hcpl hpqe hecx
  have hlook : msrLookup s.cfg s.me.ecx = .implemented .pqrAssoc := by rw [hecx, msrLookup_pqrAssoc hpqe]
  have hvalid := writeValid_pqrAssoc_iff s.cfg (s.me.edx ++ s.me.eax)
  rw [hiWord_append, loWord_append] at hvalid
  split
  next h =>
    have hme : (s.msrWrite s.active .pqrAssoc (s.me.edx ++ s.me.eax)).me =
        { s.me with pqrCos := s.me.edx, pqrLow := s.me.eax } := by
      rw [State.me, State.msrWrite_active, State.lp_msrWrite_pqrAssoc, if_pos rfl, hiWord_append, loWord_append]
      rfl
    refine ⟨_, exec_wrmsr_of_valid hcpl hlook (hvalid.mpr h), s.msrWrite_completed _ _, ?_, ?_, fun X d => ?_, fun d n => ?_⟩
    · rw [State.me_advance, hme]
    · rw [State.me_advance, hme]
    · rw [State.cache_advance, State.cache_msrWrite_of_ne _ _ _ (by simp) (by simp)]
    · rw [State.mbaThr_advance, State.mbaThr_msrWrite_of_ne _ _ _ (by simp)]
  next h => exact wrmsr_takesGP0_of_invalid hcpl hlook (mt hvalid.mp h)

theorem toNat_append_lt_two_iff (hi lo : W32) : (hi ++ lo : W64).toNat < 2 ↔ hi = 0 ∧ (lo = 0 ∨ lo = 1) := by
  have hone : (1 : W32).toNat = 1 := rfl
  rw [toNat_append_words, ← BitVec.toNat_inj, ← BitVec.toNat_inj, ← BitVec.toNat_inj, toNat_zero_word, hone]
  omega

/-- Settles O33: the valid values are 0 and 1, and the bit stored is bit 0. -/
theorem qosCfgWriteResult : Obligations.QosCfgWriteResult := by
  unfold Obligations.QosCfgWriteResult
  intro s X hcpl hcdp hecx
  have hlook : msrLookup s.cfg s.me.ecx = .implemented (.qosCfg X) := by rw [hecx, msrLookup_qosCfg hcdp]
  have hvalid := writeValid_qosCfg_iff s.cfg X (s.me.edx ++ s.me.eax)
  rw [toNat_append_lt_two_iff] at hvalid
  split
  next h =>
    refine ⟨_, exec_wrmsr_of_valid hcpl hlook (hvalid.mpr h), s.msrWrite_completed _ _, ?_, fun Y d hother => ?_,
      fun Y d m => ?_, fun d m => ?_, ?_, ?_⟩
    · rw [State.cache_advance, State.cdp_msrWrite_qosCfg, if_pos ⟨rfl, rfl⟩, getLsbD_zero_append]
      rcases h.2 with h0 | h1
      · rw [h0]; rfl
      · rw [h1]; rfl
    · have hne : ¬ (Y = X ∧ d = s.cfg.dom X s.active) := by rwa [not_and_or]
      rw [State.cache_advance, State.cache_msrWrite_qosCfg, if_neg hne]
    · rw [State.mask_advance, State.mask_msrWrite_of_ne _ _ _ (by simp)]
    · rw [State.mbaThr_advance, State.mbaThr_msrWrite_of_ne _ _ _ (by simp)]
    · rw [State.me_msrWrite_advance_of_ne (by simp)]
    · rw [State.me_msrWrite_advance_of_ne (by simp)]
  next h => exact wrmsr_takesGP0_of_invalid hcpl hlook (mt hvalid.mp h)

/-- The value of a delay write, as the three conditions on EDX and EAX. -/
theorem writeValid_mbaThrottle_append_iff (c : Cfg) (n : Nat) (hi lo : W32) :
    writeValid c (.mbaThrottle n) (hi ++ lo) = true ↔ hi = 0 ∧ lo.toNat < 65536 ∧ lo.toNat ≤ c.mbaMax := by
  rw [writeValid_mbaThrottle_iff, toNat_append_words, ← BitVec.toNat_inj, toNat_zero_word]
  constructor
  · rintro ⟨hlt, hmax⟩
    have hhi : hi.toNat = 0 := by omega
    rw [hhi] at hlt hmax
    omega
  · rintro ⟨hhi, hlt, hmax⟩
    rw [hhi]
    omega

/-- Settles O34: the delay stored is the 16-bit value written, or what it is rounded to. -/
theorem mbaWriteResult : Obligations.MbaWriteResult := by
  unfold Obligations.MbaWriteResult
  intro s n hwf hcpl hres hn hecx
  have hlook : msrLookup s.cfg s.me.ecx = .implemented (.mbaThrottle n) := by rw [hecx, msrLookup_mbaThrottle hwf hres hn]
  have hvalid := writeValid_mbaThrottle_append_iff s.cfg n s.me.edx s.me.eax
  split
  next h =>
    obtain ⟨hedx, hlt, hmax⟩ := h
    have hvalue : ((s.me.edx ++ s.me.eax : W64).setWidth 16).toNat = s.me.eax.toNat := by
      rw [BitVec.toNat_setWidth, toNat_append_words, hedx, toNat_zero_word]
      omega
    refine ⟨_, exec_wrmsr_of_valid hcpl hlook (hvalid.mpr ⟨hedx, hlt, hmax⟩), s.msrWrite_completed _ _, ?_,
      fun d m hother => ?_, fun Y d => ?_, ?_, ?_⟩
    · rw [State.mbaThr_advance, State.mbaThr_msrWrite_mbaThrottle, if_pos ⟨rfl, rfl⟩]
      split
      next hrb => rw [toNat_mbaStored_of_written hrb, hvalue]
      next hrb => rw [toNat_mbaStored_of_rounded hrb, hvalue]
    · have hne : ¬ (d = mbaDom s.cfg s.active ∧ m = n) := by rwa [not_and_or]
      rw [State.mbaThr_advance, State.mbaThr_msrWrite_mbaThrottle, if_neg hne]
    · rw [State.cache_advance, State.cache_msrWrite_of_ne _ _ _ (by simp) (by simp)]
    · rw [State.me_msrWrite_advance_of_ne (by simp)]
    · rw [State.me_msrWrite_advance_of_ne (by simp)]
  next h => exact wrmsr_takesGP0_of_invalid hcpl hlook (mt hvalid.mp h)

end Sys2Proof.Machine
end

section
/-! 43_cdp.md R151, R159, R161, R162, 92_eei_decisions.md D31: what a completed write of a QOS_CFG or a mask register leaves of masks,
classes, effective masks and the toggle hazard. -/

namespace Sys2Proof.Machine

/-- A completed `WRMSR` of a valid value is the write, and the program counter moved on. -/
theorem eq_of_exec_wrmsr {s t : State} {r : Msr} (hcpl : s.me.cpl = 0) (hlook : msrLookup s.cfg s.me.ecx = .implemented r)
    (hv : writeValid s.cfg r (s.me.edx ++ s.me.eax) = true) (h : exec .wrmsr s = .next t) :
    t = (s.msrWrite s.active r (s.me.edx ++ s.me.eax)).advance := by
  rw [exec_wrmsr_of_valid hcpl hlook hv] at h
  cases h
  rfl

/-- Settles O36: the register written is no mask and no IA32_PQR_ASSOC. -/
theorem cdpToggleKeepsRegisters : Obligations.CdpToggleKeepsRegisters := by
  unfold Obligations.CdpToggleKeepsRegisters
  intro s t X hcpl hlook hv h
  rw [eq_of_exec_wrmsr hcpl hlook hv h]
  refine ⟨fun Y d n => ?_, fun p => ?_⟩
  · rw [State.mask_advance, State.mask_msrWrite_of_ne _ _ _ (by simp)]
  · rw [State.pqrCos_lp_advance, State.pqrLow_lp_advance, State.lp_msrWrite_of_ne _ _ _ (by simp)]
    exact ⟨rfl, rfl⟩

/-- An effective mask is read from the configuration, the class, the CDP bit of the domain and its masks. -/
theorem State.effMask_congr {s t : State} {X : Level} {p : Nat} (hcfg : t.cfg = s.cfg)
    (hcos : (t.lp p).pqrCos = (s.lp p).pqrCos)
    (hcdp : (t.cache X (s.cfg.dom X p)).cdp = (s.cache X (s.cfg.dom X p)).cdp)
    (hmask : ∀ n, t.mask X (s.cfg.dom X p) n = s.mask X (s.cfg.dom X p) n) (kind : RequestKind) :
    t.effMask X p kind = s.effMask X p kind := by
  have hmasks : t.mask X (s.cfg.dom X p) = s.mask X (s.cfg.dom X p) := funext hmask
  simp only [State.effMask, State.effMaskOf, hcfg, hcos, hcdp, hmasks]

/-- Settles O40: the other level's CDP bit is another cell. -/
theorem cdpIsPerCache : Obligations.CdpIsPerCache := by
  unfold Obligations.CdpIsPerCache
  intro s t X Y p kind hXY hcpl hlook hv h
  obtain ⟨hmasks, hlps⟩ := cdpToggleKeepsRegisters s t X hcpl hlook hv h
  have ht := eq_of_exec_wrmsr hcpl hlook hv h
  have hcfg : t.cfg = s.cfg := by rw [ht, State.advance_cfg, State.msrWrite_cfg]
  refine State.effMask_congr hcfg (hlps p).1 ?_ (hmasks Y _) kind
  have hne : ¬ (Y = X ∧ s.cfg.dom Y p = s.cfg.dom X s.active) := fun hc => hXY hc.1.symm
  rw [ht, State.cache_advance, State.cdp_msrWrite_qosCfg, if_neg hne]

/-- A cache's masks are all full exactly when every one is. -/
theorem CacheState.allMasksFull_iff (c : CacheCfg) (k : CacheState) :
    k.allMasksFull c = true ↔ ∀ n, n ≤ c.cosMax → k.mask c n = fullMask c.cbmLen := by
  simp [CacheState.allMasksFull]

/-- After a hazardous toggle every mask register is unsettled, and there is at least one. -/
theorem CacheState.unsettled_writeCdp_ne_nil {c : CacheCfg} {k : CacheState} {b : Bool} (hb : b ≠ k.cdp)
    (hm : ∃ n, n ≤ c.cosMax ∧ k.mask c n ≠ fullMask c.cbmLen) : (k.writeCdp c b).hidden.unsettled ≠ [] := by
  have hfull : k.allMasksFull c = false := by
    rw [← Bool.not_eq_true, CacheState.allMasksFull_iff]
    push Not
    exact hm
  rw [CacheState.unsettled_writeCdp, if_pos ⟨hb, hfull⟩]
  simp

theorem CacheState.unsettled_writeCdp_of_harmless {c : CacheCfg} {k : CacheState} {b : Bool}
    (h : b = k.cdp ∨ ∀ n, n ≤ c.cosMax → k.mask c n = fullMask c.cbmLen) :
    (k.writeCdp c b).hidden.unsettled = k.hidden.unsettled := by
  rw [CacheState.unsettled_writeCdp, if_neg]
  rintro ⟨hb, hfull⟩
  rw [← Bool.not_eq_true, CacheState.allMasksFull_iff] at hfull
  exact h.elim hb hfull

theorem State.overridden_of_unsettled {s : State} {X : Level} {d : Nat} (h : (s.cache X d).hidden.unsettled ≠ []) :
    s.overridden X d = true := by simp [State.overridden, h]

/-- Settles O43: the write's effect on the unsettled indices, which lift every confinement while there are any. -/
theorem hazardousToggleUnsettles : Obligations.HazardousToggleUnsettles := by
  unfold Obligations.HazardousToggleUnsettles
  intro s t X hcpl hlook hv h
  have ht := eq_of_exec_wrmsr hcpl hlook hv h
  have hcfg : t.cfg = s.cfg := by rw [ht, State.advance_cfg, State.msrWrite_cfg]
  have hcache : ∀ Y d, t.cache Y d = if Y = X ∧ d = s.cfg.dom X s.active then
      (s.cache X (s.cfg.dom X s.active)).writeCdp (s.cfg.cache X) (s.me.eax.getLsbD 0) else s.cache Y d := fun Y d => by
    rw [ht, State.cache_advance, State.cache_msrWrite_qosCfg, getLsbD_zero_append]
  have hown := hcache X (s.cfg.dom X s.active)
  rw [if_pos ⟨rfl, rfl⟩] at hown
  refine ⟨fun hbit hmask => ?_, fun hharmless => ?_, fun Y d hother => ?_⟩
  · have huns : (t.cache X (s.cfg.dom X s.active)).hidden.unsettled ≠ [] := by
      rw [hown]
      exact CacheState.unsettled_writeCdp_ne_nil hbit hmask
    refine ⟨fun p kind hdom => ?_, fun r i hdom => ?_⟩
    · rw [State.maskInForce, hcfg, hdom, if_neg huns]
    · rw [State.mayFill_iff, hcfg, hdom]
      exact and_iff_left (.inl (State.overridden_of_unsettled huns))
  · rw [hown]
    exact CacheState.unsettled_writeCdp_of_harmless hharmless
  · have hne : ¬ (Y = X ∧ d = s.cfg.dom X s.active) := by rwa [not_and_or]
    rw [hcache, if_neg hne]

/-- Settles O44: the index written is filtered out of one cache's unsettled indices. -/
theorem maskWritesSettle : Obligations.MaskWritesSettle := by
  unfold Obligations.MaskWritesSettle
  intro s t X n hcpl hlook hv h Y d m
  rw [eq_of_exec_wrmsr hcpl hlook hv h, State.cache_advance, State.cache_msrWrite_mask]
  split
  next hc =>
    obtain ⟨rfl, rfl⟩ := hc
    simp
  next hc =>
    have hkeep : ¬ (Y = X ∧ d = s.cfg.dom X s.active ∧ m = n) := fun hall => hc ⟨hall.1, hall.2.1⟩
    exact (and_iff_left hkeep).symm

end Sys2Proof.Machine
end

section
/-! 42_cat.md R136, R139, 43_cdp.md R157, 20_memory.md R58, 92_eei_decisions.md D18: the classes usable under CDP, and where a request may
be filled, in any later state and after reset. -/

namespace Sys2Proof.Machine

/-- Under CDP a class has a governing mask exactly when its whole pair of registers exists. -/
theorem isSome_governingMask_cdp_iff {cc : CacheCfg} (hres : cc.res = true) (hcdp : cc.cdp = true) (c : Nat) (kind : RequestKind) :
    (governingMask cc true c kind).isSome = true ↔ 2 * c + 1 ≤ cc.cosMax := by
  by_cases hpair : 2 * c + 1 ≤ cc.cosMax
  · obtain ⟨hdata, hcode⟩ := governingMask_of_cdp_pair hres hcdp hpair
    cases kind with
    | code => simp [hcode, hpair]
    | data => simp [hdata, hpair]
  · simp [governingMask_of_no_cdp_pair hres hcdp hpair, hpair]

theorem cosMaxCdp_eq_div_two (cc : CacheCfg) : cosMaxCdp cc = cc.cosMax / 2 := Nat.shiftRight_one _

/-- Settles O39: the pair of class `c` ends at register `2c + 1`. -/
theorem usableCdpClasses : Obligations.UsableCdpClasses := by
  unfold Obligations.UsableCdpClasses
  refine ⟨fun cc c kind hres hcdp => ⟨?_, fun hodd => ?_, fun heven => ?_⟩, fun cc c kind hres hcdp hfour => ?_⟩
  · rw [isSome_governingMask_cdp_iff hres hcdp]
    omega
  · rw [cosMaxCdp_eq_div_two]
    omega
  · rw [cosMaxCdp_eq_div_two]
    omega
  · rw [isSome_governingMask_cdp_iff hres hcdp, hfour]
    omega

/-! Fills -/

/-- The three overrides of D18. -/
theorem State.overridden_iff (s : State) (X : Level) (d : Nat) : s.overridden X d = true ↔
    (s.cache X d).hidden.override = true ∨ (s.cache X d).hidden.unsettled ≠ [] ∨ s.inSmm ≠ [] := by
  simp [State.overridden, or_assoc]

/-- A request issued in `s` keeps its mask when it is filled in `u`. -/
theorem State.mayFill_request_iff_of_confined {s u : State} (hcfg : u.cfg = s.cfg) {X : Level} {p : Nat} {kind : RequestKind}
    {m : W32} (hm : s.maskInForce X p kind = some m) (hfree : u.overridden X (s.cfg.dom X p) = false) (line i : Nat) :
    u.mayFill (s.request p kind line) X i = true ↔ i < (s.cfg.cache X).cbmLen ∧ m.getLsbD i = true := by
  simp [State.mayFill_iff, State.request_confines, hcfg, hm, hfree]

/-- Without a mask, or under an override, any unit will do. -/
theorem State.mayFill_request_iff_of_unconfined {s u : State} (hcfg : u.cfg = s.cfg) {X : Level} {p : Nat} {kind : RequestKind}
    (h : s.maskInForce X p kind = none ∨ u.overridden X (s.cfg.dom X p) = true) (line i : Nat) :
    u.mayFill (s.request p kind line) X i = true ↔ i < (s.cfg.cache X).cbmLen := by
  rw [State.mayFill_iff, State.request_confines, State.request_lp, hcfg]
  refine and_iff_left ?_
  rcases h with hnone | hover
  · exact .inr fun m hm => by rw [hnone] at hm; cases hm
  · exact .inl hover

theorem State.maskInForce_eq_none {s : State} {X : Level} {p : Nat} {kind : RequestKind}
    (h : s.effMask X p kind = none ∨ (s.cache X (s.cfg.dom X p)).hidden.unsettled ≠ []) : s.maskInForce X p kind = none := by
  unfold State.maskInForce
  split
  next hsettled => exact h.resolve_right (not_not_intro hsettled)
  next => rfl

theorem PlatformEvent.possible_fill_iff (u : State) (r : Request) (X : Level) (i : Nat) (evicted : List Nat) :
    (PlatformEvent.fill r X i evicted).possible u = true ↔
      r ∈ u.requests ∧ u.mayFill r X i = true ∧ u.hits X (u.cfg.dom X r.lp) r.line = false := by
  simp [PlatformEvent.possible, and_assoc]

/-- No event but the issue of a request adds one. -/
theorem PlatformEvent.mem_requests_apply {e : PlatformEvent} {u : State} {r : Request} (h : r ∈ (e.apply u).requests) :
    r ∈ u.requests ∨ ∃ p kind line, e = .issue p kind line ∧ r = u.request p kind line := by
  cases e with
  | issue p kind line =>
    rcases List.mem_cons.mp h with rfl | hold
    · exact .inr ⟨p, kind, line, rfl, rfl⟩
    · exact .inl hold
  | fill q X unit evicted => exact .inl (by rwa [PlatformEvent.apply, State.setHidden_requests] at h)
  | retire q => exact .inl (List.mem_of_mem_erase h)
  | agentFill X d line unit evicted => exact .inl (by rwa [PlatformEvent.apply, State.setHidden_requests] at h)
  | setOverride X d on => exact .inl (by rwa [PlatformEvent.apply, State.setHidden_requests] at h)
  | flush X d kept => exact .inl (by rwa [PlatformEvent.apply, State.setHidden_requests] at h)
  | smi p => exact .inl h
  | smmWrite p q v => exact .inl (by rwa [PlatformEvent.apply, State.msrWrite_requests] at h)
  | smmReturn p => exact .inl h
  | c6 p => exact .inl h
  | packageCState => exact .inl h
  | reset => cases h

/-- Settles O41: the mask of a request is the one in force when it was issued, and an override of the later state lifts it. -/
theorem requestsFillInsideTheirMask : Obligations.RequestsFillInsideTheirMask := by
  unfold Obligations.RequestsFillInsideTheirMask
  refine ⟨fun s u X p kind line i hcfg => ⟨fun m hm hsettled hfree => ?_, fun h => ?_⟩, State.overridden_iff,
    PlatformEvent.possible_fill_iff, fun e u r => PlatformEvent.mem_requests_apply⟩
  · exact State.mayFill_request_iff_of_confined hcfg ((s.maskInForce_eq_some X p kind m).mpr ⟨hsettled, hm⟩) hfree line i
  · rw [← or_assoc] at h
    exact State.mayFill_request_iff_of_unconfined hcfg (h.imp_left State.maskInForce_eq_none) line i

/-! After reset -/

theorem State.mask_resetWith (c : Cfg) (X : Level) (d n : Nat) :
    (State.resetWith c).mask X d n = fullMask (c.cache X).cbmLen := by
  have hcfg : (State.resetWith c).cfg = c := rfl
  rw [State.mask, State.cache_resetWith, hcfg, CacheState.mask_reset]

/-- Class 0 with CDP off is governed by mask 0, which is full. -/
theorem State.effMask_resetWith {c : Cfg} {X : Level} (hres : (c.cache X).res = true) (p : Nat) (kind : RequestKind) :
    (State.resetWith c).effMask X p kind = some (fullMask (c.cache X).cbmLen) := by
  rw [effMaskInCatOnlyMode (State.resetWith c) X p kind hres (.inr (State.cdp_cache_resetWith c X _)),
    State.pqrCos_lp_resetWith, toNat_zero_word, if_pos (Nat.zero_le _), State.mask_resetWith]

theorem State.overridden_resetWith (c : Cfg) (X : Level) (d : Nat) : (State.resetWith c).overridden X d = false := by
  rw [State.overridden, State.cache_resetWith]
  rfl

/-- Settles O47: every unit is a bit of the full mask. -/
theorem resetIsUnrestricted : Obligations.ResetIsUnrestricted := by
  unfold Obligations.ResetIsUnrestricted
  intro c X p kind line hres
  have heff := State.effMask_resetWith hres p kind
  refine ⟨heff, fun i => ?_⟩
  have hcfg : (State.resetWith c).cfg = c := rfl
  rw [State.mayFill_request_iff heff (State.overridden_resetWith c X _), hcfg,
    getLsbD_fullMask _ _ (c.cache X).cbmLen_le, decide_eq_true_iff, and_self]

/-- Settles O53: a full mask, as a number. -/
theorem resetMasksAreFull : Obligations.ResetMasksAreFull := by
  unfold Obligations.ResetMasksAreFull
  intro c X d n _
  rw [State.mask_resetWith, fullMask_toNat _ (c.cache X).cbmLen_le]

/-- Settles O54: every processor reads as `LpState.reset`, every delay register as 0. -/
theorem resetValuesChosen : Obligations.ResetValuesChosen := by
  unfold Obligations.ResetValuesChosen
  intro c
  refine ⟨fun p => ?_, State.mbaThr_resetWith c⟩
  rw [State.lp_resetWith]
  exact ⟨rfl, rfl, rfl, rfl, fun r => by cases r <;> rfl⟩

end Sys2Proof.Machine
end

section
/-! 60_exceptions.md R203, R204, R207 to R210, 92_eei_decisions.md D34: platform events and the registers of the interface. -/

namespace Sys2Proof.Machine

/-- Replacing the hidden part of a cache leaves every register. -/
theorem State.sameMsrs_setHidden (s : State) (X : Level) (d : Nat) (h : CacheHidden) : s.SameMsrs (s.setHidden X d h) := by
  intro q r
  rw [State.msrRead, State.setHidden_cfg, State.msrRead]
  cases r with
  | pqrAssoc => simp only [msrResolve, State.readCell, State.lp_setHidden]
  | qosCfg Y =>
    simp only [msrResolve, State.readCell, State.cache_setHidden]
    split
    next hc =>
      obtain ⟨rfl, rfl⟩ := hc
      rfl
    next => rfl
  | mask Y n => simp only [msrResolve, State.readCell, State.mask_setHidden]
  | mbaThrottle n => simp only [msrResolve, State.readCell, State.mbaThr_setHidden]

/-- Every event but a reset and a handler's write leaves the registers and the logical processors. -/
theorem PlatformEvent.apply_sameMsrs {e : PlatformEvent} (s : State) (hreset : e ≠ .reset) (hwrite : ∀ p r v, e ≠ .smmWrite p r v) :
    s.SameMsrs (e.apply s) ∧ ∀ p, (e.apply s).lp p = s.lp p := by
  have hidden : ∀ X d h, s.SameMsrs (s.setHidden X d h) ∧ ∀ p, (s.setHidden X d h).lp p = s.lp p :=
    fun X d h => ⟨s.sameMsrs_setHidden X d h, fun p => s.lp_setHidden X d p h⟩
  have other : ∀ (rs : List Request) (ps : List Nat), s.SameMsrs { s with requests := rs, inSmm := ps } ∧
      ∀ p, ({ s with requests := rs, inSmm := ps } : State).lp p = s.lp p :=
    fun rs ps => ⟨fun q r => by cases r <;> rfl, fun p => rfl⟩
  cases e with
  | issue p kind line => exact other _ _
  | fill r X unit evicted => exact hidden _ _ _
  | retire r => exact other _ _
  | agentFill X d line unit evicted => exact hidden _ _ _
  | setOverride X d on => exact hidden _ _ _
  | flush X d kept => exact hidden _ _ _
  | smi p => exact other _ _
  | smmWrite p r v => exact absurd rfl (hwrite p r v)
  | smmReturn p => exact other _ _
  | c6 p => exact other _ _
  | packageCState => exact other _ _
  | reset => exact absurd rfl hreset

theorem PlatformEvent.possible_smmWrite_iff (s : State) (p : Nat) (r : Msr) (v : W64) :
    (PlatformEvent.smmWrite p r v).possible s = true ↔
      p ∈ s.inSmm ∧ msrImplemented s.cfg r = true ∧ writeValid s.cfg r v = true := by
  simp [PlatformEvent.possible, and_assoc]

/-- Settles O46: the events by cases, and a handler's write by the storage law. -/
theorem platformEventsKeepRegisters : Obligations.PlatformEventsKeepRegisters := by
  unfold Obligations.PlatformEventsKeepRegisters
  constructor
  · intro e s hreset hwrite
    obtain ⟨hmsrs, hlps⟩ := PlatformEvent.apply_sameMsrs s hreset hwrite
    exact ⟨hmsrs, e.apply_cfg s, hlps⟩
  · intro s p r v hpos
    obtain ⟨hsmm, himp, hv⟩ := (PlatformEvent.possible_smmWrite_iff s p r v).mp hpos
    exact ⟨hsmm, himp, hv, s.msrWrite_cfg p v r, State.msrRead_msrWrite hv p, s.lp_msrWrite_regs p v r⟩

end Sys2Proof.Machine
end

section
/-! 44_mba.md R175 to R181, 92_eei_decisions.md D10, D30: the applied delay in both modes, and the delay of a core as a maximum. -/

namespace Sys2Proof.Machine

theorem mbaApplied_of_linear {c : Cfg} (hlin : c.mbaLinear = true) (v : Nat) :
    mbaApplied c v = if mbaPrecision c = 0 then v else v - v % mbaPrecision c := by rw [mbaApplied, if_pos hlin]

theorem mbaApplied_of_powers {c : Cfg} (hlin : c.mbaLinear = false) (v : Nat) : mbaApplied c v = floorPow2 v := by
  simp [mbaApplied, hlin]

theorem floorPow2_of_ne_zero {v : Nat} (hv : v ≠ 0) : floorPow2 v = 2 ^ Nat.log2 v := if_neg hv

theorem floorPow2_floorPow2 (v : Nat) : floorPow2 (floorPow2 v) = floorPow2 v := by
  by_cases hv : v = 0
  · rw [hv]; rfl
  · have hpos : (2 ^ Nat.log2 v) ≠ 0 := by positivity
    rw [floorPow2_of_ne_zero hv, floorPow2_of_ne_zero hpos, Nat.log2_two_pow]

/-- Settles O48: taking the remainder away leaves the largest multiple. -/
theorem appliedInLinearMode : Obligations.AppliedInLinearMode := by
  unfold Obligations.AppliedInLinearMode
  intro c v hlin
  rw [mbaApplied_of_linear hlin, mbaPrecision]
  constructor
  · intro hmax
    have hpos : 0 < 100 - c.mbaMax := Nat.sub_pos_of_lt hmax
    have hrem := Nat.mod_lt v hpos
    rw [if_neg hpos.ne']
    exact ⟨Nat.dvd_sub_mod v, Nat.sub_le _ _, by omega⟩
  · intro hmax
    rw [if_pos (Nat.sub_eq_zero_of_le hmax)]

/-- Settles O49: the exponent is the binary logarithm. -/
theorem appliedInPowerOfTwoMode : Obligations.AppliedInPowerOfTwoMode := by
  unfold Obligations.AppliedInPowerOfTwoMode
  intro c v hlin
  rw [mbaApplied_of_powers hlin, mbaApplied_of_powers hlin]
  refine ⟨rfl, fun hv => ?_⟩
  have hne : v ≠ 0 := Nat.one_le_iff_ne_zero.mp hv
  exact ⟨Nat.log2 v, floorPow2_of_ne_zero hne, Nat.log2_self_le hne, Nat.lt_log2_self⟩

theorem mbaApplied_mbaApplied (c : Cfg) (v : Nat) : mbaApplied c (mbaApplied c v) = mbaApplied c v := by
  cases hlin : c.mbaLinear with
  | false => rw [mbaApplied_of_powers hlin, mbaApplied_of_powers hlin, floorPow2_floorPow2]
  | true =>
    rw [mbaApplied_of_linear hlin, mbaApplied_of_linear hlin]
    split
    next => rfl
    next =>
      have hrem : (v - v % mbaPrecision c) % mbaPrecision c = 0 := Nat.mod_eq_zero_of_dvd (Nat.dvd_sub_mod v)
      rw [hrem, Nat.sub_zero]

/-- Settles O50: the register holds the value written or the value applied, and rounding that again changes nothing. -/
theorem appliedDelayIgnoresReadback : Obligations.AppliedDelayIgnoresReadback := by
  unfold Obligations.AppliedDelayIgnoresReadback
  intro c v
  refine ⟨mbaApplied_mbaApplied c v.toNat, ?_⟩
  cases hrb : c.readback with
  | written => rw [toNat_mbaStored_of_written hrb]
  | rounded => rw [toNat_mbaStored_of_rounded hrb, mbaApplied_mbaApplied]

/-! The delay of a core -/

/-- The logical processors of core `k`. -/
def lpsOfCore (c : Cfg) (k : Nat) : List Nat := (List.range c.lps.length).filter fun p => (c.place p).core == k

theorem mem_lpsOfCore {c : Cfg} {k p : Nat} : p ∈ lpsOfCore c k ↔ p < c.lps.length ∧ (c.place p).core = k := by
  simp [lpsOfCore]

/-- The core's delay is the maximum of 0 and the delays of its processors. -/
theorem State.max?_threadDelays (s : State) (k : Nat) :
    (0 :: (lpsOfCore s.cfg k).map s.threadDelay).max? = some (s.coreDelay k) := by
  rw [List.max?_cons', List.foldl_map]
  rfl

theorem State.threadDelay_of_uncovered {s : State} {p : Nat} (h : s.cfg.mbaCosMax < (s.lp p).pqrCos.toNat) :
    s.threadDelay p = 0 := by
  have hnot : ¬ (s.lp p).pqrCos.toNat ≤ s.cfg.mbaCosMax := not_le.mpr h
  simp [State.threadDelay, hnot]

theorem State.threadDelay_of_covered {s : State} {p : Nat} (hres : s.cfg.resMba = true)
    (h : (s.lp p).pqrCos.toNat ≤ s.cfg.mbaCosMax) :
    s.threadDelay p = mbaApplied s.cfg (s.mbaThr (s.cfg.place p).mbadom (s.lp p).pqrCos.toNat).toNat := by
  simp [State.threadDelay, hres, h, mbaDom]

/-- Settles O51: a maximum bounds its list and is one of it. -/
theorem coreDelayIsMaximum : Obligations.CoreDelayIsMaximum := by
  unfold Obligations.CoreDelayIsMaximum
  intro s k
  obtain ⟨hmem, hbound⟩ := List.max?_eq_some_iff.mp (s.max?_threadDelays k)
  refine ⟨fun p hp hk => ?_, ?_, fun p => State.threadDelay_of_uncovered, fun p => State.threadDelay_of_covered⟩
  · exact hbound _ (List.mem_cons_of_mem _ (List.mem_map_of_mem (mem_lpsOfCore.mpr ⟨hp, hk⟩)))
  · rcases List.mem_cons.mp hmem with hzero | hdelay
    · exact .inl hzero
    · obtain ⟨p, hp, heq⟩ := List.mem_map.mp hdelay
      obtain ⟨hlt, hcore⟩ := mem_lpsOfCore.mp hp
      exact .inr ⟨p, hlt, hcore, heq.symm⟩

end Sys2Proof.Machine
end
